-- ==== Sys2Proof/Word.lean ====
section
/-! DEFINITION. The machine's one data width: a byte (spec/00_scope.md R7, R13). -/

namespace Sys2Proof

/-- A register cell or a memory cell: "one byte, a value in [0,255]" (00_scope.md R7), read as an
unsigned number everywhere (R13). -/
abbrev Byte := BitVec 8

end Sys2Proof
end

