-- ==== Sys2Proof/Config.lean ====
section
/-! DEFINITION. The two implementation parameters of the CORE (spec/00_scope.md R10, R11). -/

namespace Sys2Proof

/-- The parameters "a model takes as arguments" (92_eei_decisions.md, last line). They are fixed for
one machine: the model keeps them in a field of State that no step writes (log entry 1), so every
statement over all states is a statement over both machines. -/
structure Config where
  /-- `P_SP_INIT` (R10): the value R7 takes at reset. 0xF4 is the spec's decision D10, marked there as
  general knowledge (log entry 2). -/
  spInit : Byte := 0xF4
  /-- `P_ADD_OPCODE` (R11): whether opcode byte 0xA0 is the instruction ADD. Default false (D4). -/
  addOpcode : Bool := false
  deriving DecidableEq, Repr

/-- The parameters at the values the spec decides (R10, R11). -/
def Config.default : Config := {}

/-- The other machine of R11: `P_ADD_OPCODE` true. -/
def Config.withAdd : Config := { addOpcode := true }

end Sys2Proof
end

