-- ==== Sys2Proof/Syntax.lean ====
section
/-! DEFINITION. The instructions (spec/30_encoding.md R61, R63): one constructor per row of
spec/opcode_table.json, its operands the operand bytes as they stand in memory.

A register operand is the WHOLE byte, not a register number below 8: the decoder "uses all 8 bits"
(R64), and the check that the byte is below 8 is a later phase of the step with a fault of its own
(40_cycle.md R84). WellFormed.lean says which terms name existing registers. -/

namespace Sys2Proof

/-- The rows of the opcode map (R63). -/
inductive Op where
  | hlt | push | pop | prn | ldi | add | mul
  deriving DecidableEq, Repr

/-- The four formats (R61). -/
inductive Format where
  /-- Length 1: opcode. -/
  | f0
  /-- Length 2: opcode, register. -/
  | f1r
  /-- Length 3: opcode, register, immediate. -/
  | f2ri
  /-- Length 3: opcode, register (source and destination), register (source). -/
  | f2rr
  deriving DecidableEq, Repr

/-- An instruction with its operand bytes, in the order of R61. -/
inductive Instr where
  | hlt
  | push (reg : Byte)
  | pop (reg : Byte)
  | prn (reg : Byte)
  | ldi (reg imm : Byte)
  | add (regA regB : Byte)
  | mul (regA regB : Byte)
  deriving DecidableEq, Repr

end Sys2Proof
end

