-- ==== Sys2Proof/Decode.lean ====
section
/-! DEFINITION. The instruction encoding (spec/30_encoding.md): the opcode map, the decoder, and after
it the encoder. Decoding is written once, over a way of reading the instruction's byte number `k`, and
used twice: on a list of bytes here, and on memory at the program counter in Machine/Fetch.lean. -/

namespace Sys2Proof

/-! The opcode bytes of R63. LDI, MUL, PRN and HLT are normative; PUSH and POP are decision D3 and ADD
is decision D4, from general knowledge (log entry 3), so each byte is a named constant. -/

def Opcode.hlt : Byte := 0x01
def Opcode.push : Byte := 0x45
def Opcode.pop : Byte := 0x46
def Opcode.prn : Byte := 0x47
def Opcode.ldi : Byte := 0x82
def Opcode.add : Byte := 0xA0
def Opcode.mul : Byte := 0xA2

/-- The opcode byte of a row of R63. -/
def Op.code : Op → Byte
  | .hlt => Opcode.hlt
  | .push => Opcode.push
  | .pop => Opcode.pop
  | .prn => Opcode.prn
  | .ldi => Opcode.ldi
  | .add => Opcode.add
  | .mul => Opcode.mul

/-- The format of a row of R63. -/
def Op.format : Op → Format
  | .hlt => .f0
  | .push => .f1r
  | .pop => .f1r
  | .prn => .f1r
  | .ldi => .f2ri
  | .add => .f2rr
  | .mul => .f2rr

/-- The operand count n of a format (R61). -/
def Format.operands : Format → Nat
  | .f0 => 0
  | .f1r => 1
  | .f2ri => 2
  | .f2rr => 2

/-- The row an instruction is an occurrence of. -/
def Instr.op : Instr → Op
  | .hlt => .hlt
  | .push _ => .push
  | .pop _ => .pop
  | .prn _ => .prn
  | .ldi _ _ => .ldi
  | .add _ _ => .add
  | .mul _ _ => .mul

/-- The operand count n of an instruction: "the opcode alone fixes" it (R60). -/
def Instr.operands (i : Instr) : Nat := i.op.format.operands

/-- The length 1 + n (R60, R66). -/
def Instr.length (i : Instr) : Nat := 1 + i.operands

/-- The rows of R63 present on a machine with parameters `cfg`: ADD only when `P_ADD_OPCODE` (R11). -/
def opcodeMap (cfg : Config) : List (Byte × Op) :=
  [(Opcode.hlt, .hlt), (Opcode.push, .push), (Opcode.pop, .pop), (Opcode.prn, .prn), (Opcode.ldi, .ldi),
    (Opcode.mul, .mul)] ++ (if cfg.addOpcode then [(Opcode.add, .add)] else [])

/-- The lookup of the opcode byte: all 8 bits, an exact match (R62). -/
def lookupOpcode (cfg : Config) (b : Byte) : Option Op := (opcodeMap cfg).lookup b

/-- Why bytes are no instruction. `ε` is what the reader answers where it has no byte. -/
inductive DecodeError (ε : Type) where
  /-- A byte could not be read: the opcode byte (`opcode` is none) or an operand byte of the
  instruction whose opcode byte is given (R81, R83). -/
  | noByte (opcode : Option Byte) (why : ε)
  /-- The opcode byte is not in the map (R67, R82). -/
  | unknownInstruction (opcode : Byte)
  deriving DecidableEq, Repr

/-- Reads operand byte number `k` of the instruction whose opcode byte is `b` (R83). -/
def readOperand {ε : Type} (read : Nat → Except ε Byte) (b : Byte) (k : Nat) : Except (DecodeError ε) Byte :=
  match read k with
  | .ok v => .ok v
  | .error e => .error (.noByte (some b) e)

/-- An instruction with one operand byte. -/
def readOne {ε : Type} (read : Nat → Except ε Byte) (b : Byte) (mk : Byte → Instr) :
    Except (DecodeError ε) Instr :=
  match readOperand read b 1 with
  | .error e => .error e
  | .ok b1 => .ok (mk b1)

/-- An instruction with two operand bytes, read in order (R83). -/
def readTwo {ε : Type} (read : Nat → Except ε Byte) (b : Byte) (mk : Byte → Byte → Instr) :
    Except (DecodeError ε) Instr :=
  match readOperand read b 1 with
  | .error e => .error e
  | .ok b1 =>
    match readOperand read b 2 with
    | .error e => .error e
    | .ok b2 => .ok (mk b1 b2)

/-- The operand bytes of a row, as its format lays them out (R61). -/
def readOperands {ε : Type} (read : Nat → Except ε Byte) (b : Byte) : Op → Except (DecodeError ε) Instr
  | .hlt => .ok .hlt
  | .push => readOne read b .push
  | .pop => readOne read b .pop
  | .prn => readOne read b .prn
  | .ldi => readTwo read b .ldi
  | .add => readTwo read b .add
  | .mul => readTwo read b .mul

/-- The phases fetch, decode and operand fetch of a step (R81, R82, R83), over a reader of the
instruction's byte number `k`: an unknown opcode is reported before any operand byte is read. -/
def decodeAt {ε : Type} (cfg : Config) (read : Nat → Except ε Byte) : Except (DecodeError ε) Instr :=
  match read 0 with
  | .error e => .error (.noByte none e)
  | .ok b =>
    match lookupOpcode cfg b with
    | none => .error (.unknownInstruction b)
    | some op => readOperands read b op

/-- Byte `k` of a list, or the number of the byte that is missing. -/
def byteAt (bs : List Byte) (k : Nat) : Except Nat Byte :=
  match bs[k]? with
  | some b => .ok b
  | none => .error k

/-- The decoder on a list of bytes, total: the instruction and the bytes after it, or why there is
none (R68). -/
def decode (cfg : Config) (bs : List Byte) : Except (DecodeError Nat) (Instr × List Byte) :=
  match decodeAt cfg (byteAt bs) with
  | .error e => .error e
  | .ok i => .ok (i, bs.drop i.length)

/-- The bytes of an instruction: "the opcode byte of rule R63, then each operand byte in the order of
rule R61" (R72). -/
def encode : Instr → List Byte
  | .hlt => [Opcode.hlt]
  | .push r => [Opcode.push, r]
  | .pop r => [Opcode.pop, r]
  | .prn r => [Opcode.prn, r]
  | .ldi r v => [Opcode.ldi, r, v]
  | .add a b => [Opcode.add, a, b]
  | .mul a b => [Opcode.mul, a, b]

/-- The image of a sequence of statements (R71, R72): each assembles to its own row, in order. -/
def assemble (is : List Instr) : List Byte := is.flatMap encode

/-- The bytes of an instruction word numbered as spec/opcode_table.json numbers it: the first byte is
bits 7..0. The longest instruction has three bytes (R60); every bit at or above `nbits` is 0. -/
def tableBytes (nbits w : Nat) : List Byte :=
  [0, 1, 2].map fun k => BitVec.ofNat 8 ((w % 2 ^ nbits) / 2 ^ (8 * k))

/-- What the decoder reads from a word of the opcode table. The table lists ADD under the condition
"only when P_ADD_OPCODE = true", so its words are read on the machine that has every row
(log entry 1). -/
def decodeTableWord (nbits w : Nat) : Option Instr :=
  match decode Config.withAdd (tableBytes nbits w) with
  | .ok (i, _) => some i
  | .error _ => none

end Sys2Proof
end

