-- ==== Sys2Proof/Machine/State.lean ====
section
/-! DEFINITION. The architectural state of the CORE (spec/10_state.md), the reasons a model operation
can stop, and the state after reset (R33). Nothing but the parameters of Config is here beside the
spec's own tuple. -/

namespace Sys2Proof.Machine

/-- The run status (R28). -/
inductive Status where
  | running | halted | fault
  deriving DecidableEq, Repr

/-- The three fault codes (R29, 60_exceptions.md R130). -/
inductive FaultCode where
  | unknownInstruction | unsupportedALUOperation | outOfBounds
  deriving DecidableEq, Repr

/-- The ALU selector: "an enumeration {ADD, MUL, other}" (43_alu.md R110, decision D21). -/
inductive AluOp where
  | add | mul | other
  deriving DecidableEq, Repr

/-- The offending value of a fault record (R29). -/
inductive Detail where
  /-- UnknownInstruction: the opcode byte. -/
  | opcode (b : Byte)
  /-- UnsupportedALUOperation: the ALU selector. -/
  | selector (op : AluOp)
  /-- OutOfBounds: the address, above 255. -/
  | address (a : Nat)
  /-- OutOfBounds: the register-operand byte, 8 or more. -/
  | register (r : Byte)
  deriving DecidableEq, Repr

/-- The fault record `{code, pc, opcode, detail}` (R29). -/
structure FaultRecord where
  code : FaultCode
  /-- `pc` at the faulting step. -/
  pc : Nat
  /-- The opcode byte, or none if the opcode fetch itself faulted. -/
  opcode : Option Byte
  detail : Detail
  deriving DecidableEq, Repr

/-- Memory: the listed cells, addresses strictly rising, no cell equal to what an unlisted address
reads as (`Memory.wf` in Machine/Ops.lean). -/
abbrev Memory := List Host.Cell

/-- The state tuple at the head of spec/10_state.md, and the machine's parameters. -/
structure State where
  /-- `P_SP_INIT` and `P_ADD_OPCODE` (00_scope.md R10, R11): configuration, written by nothing
  (log entry 1). -/
  cfg : Config
  /-- The register file: eight 8-bit cells, R7 is SP (R20, R22). -/
  x : Vector Byte 8
  /-- The program counter: "a natural number in [0, 256]", which "does not wrap" (R26); that it never
  exceeds 256 is part of `State.Inv` (Safety.lean). -/
  pc : Nat
  /-- The 256 byte cells (R27). -/
  mem : Memory
  /-- R28. -/
  status : Status
  /-- R29. -/
  fault : Option FaultRecord
  /-- The output trace, oldest byte first (R30). -/
  out : List Byte
  deriving DecidableEq, Repr

/-- Reasons a step stops outside the machine's own behaviour: there are none. The spec gives every
error of the CORE a state after it (status FAULT and a fault record, 60_exceptions.md R130), so each
is a next state, and no operation of the model answers a fault (log entry 4). The type is empty. -/
inductive Fault : Type
  deriving DecidableEq, Repr

/-- Reasons the model gives no meaning. No step of the machine answers one: "no refusal is needed for
the instruction set in scope" (00_scope.md R16). -/
inductive Refusal where
  /-- An arm of `exec` without a meaning would raise it; no arm does. Safe. -/
  | notModelled (mnemonic : String)
  /-- Raised by `loadImage` and `parseImage` (host side, before any step): an image of more than 256
  bytes or a literal above 255 "is refused" as a UsageError (70_reset_and_hazards.md R152, R153;
  60_exceptions.md R135). Safe: the spec gives no run. -/
  | usageError
  /-- Raised by `loadPort`: a load-port write that does not come after reset and before the first step
  "is not modelled" (10_state.md R36). Safe: it stops where the spec says nothing. -/
  | loadPortTooLate
  deriving DecidableEq, Repr

/-- The answer of a step. -/
abbrev Outcome := Host.Outcome State Fault Refusal

/-- The reset state of a machine with parameters `cfg`, the table of R33. -/
def State.resetWith (cfg : Config) : State where
  cfg := cfg
  x := #v[0, 0, 0, 0, 0, 0, 0, cfg.spInit]
  pc := 0
  mem := []
  status := .running
  fault := none
  out := []

/-- The machine right after reset, with the parameters at their decided values (R10, R11, R33). -/
def State.reset : State := State.resetWith Config.default

end Sys2Proof.Machine
end

