-- ==== Sys2Proof/Machine/Ops.lean ====
section
/-! DEFINITION. The named operations every meaning is written over: the pseudocode primitives of
spec/00_scope.md R14 (register access, MemRead, MemWrite, emit, halt, raise) and the advance of
40_cycle.md R86. -/

namespace Sys2Proof.Machine

/-- What an unlisted address reads as: "memory zero" at reset (10_state.md R33, 70 R150). -/
def Memory.unlisted : Byte := 0

/-- A cell in front of `rest`, or nothing where it would equal what an unlisted address reads as. -/
def Memory.cell (a : Nat) (v : Byte) (rest : Memory) : Memory :=
  if v = Memory.unlisted then rest else (a, v) :: rest

/-- The byte at an address. -/
def Memory.read : Memory → Nat → Byte
  | [], _ => Memory.unlisted
  | (b, w) :: m, a => if a = b then w else if a < b then Memory.unlisted else Memory.read m a

/-- The memory with one byte replaced, in canonical form again. -/
def Memory.write : Memory → Nat → Byte → Memory
  | [], a, v => Memory.cell a v []
  | (b, w) :: m, a, v =>
    if a < b then Memory.cell a v ((b, w) :: m)
    else if a = b then Memory.cell a v m
    else (b, w) :: Memory.write m a v

/-- Canonical form of the cells at addresses `lo` and above: strictly rising, inside the 256 cells of
10_state.md R27, none equal to what an unlisted address reads as. -/
def Memory.wfFrom : Nat → Memory → Bool
  | _, [] => true
  | lo, (a, v) :: m => decide (lo ≤ a) && decide (a ≤ 255) && decide (v ≠ Memory.unlisted) && Memory.wfFrom (a + 1) m

/-- Canonical form of a memory. -/
def Memory.wf (m : Memory) : Bool := Memory.wfFrom 0 m

/-- `MemRead(addr, 1)` (20_memory.md R41). -/
def memRead (s : State) (a : Nat) : Except Detail Byte :=
  if 255 < a then .error (.address a) else .ok (s.mem.read a)

/-- `MemWrite(addr, 1, v)` (20_memory.md R42). -/
def memWrite (a : Nat) (v : Byte) (s : State) : Except Detail State :=
  if 255 < a then .error (.address a) else .ok { s with mem := s.mem.write a v }

/-- `SP_INDEX` (00_scope.md R9): the stack pointer is R7. -/
def spIndex : Fin 8 := 7

/-- `x[i]` (00_scope.md R14). No register is hardwired (10_state.md R24). -/
def readReg (s : State) (i : Fin 8) : Byte := s.x[i]

/-- `x[i] <- v` (00_scope.md R14): "a write to one cell changes no other cell" (10_state.md R20). -/
def writeReg (i : Fin 8) (v : Byte) (s : State) : State := { s with x := s.x.set i v }

/-- Reduction `mod 256` before a register is written (00_scope.md R15). -/
def wrap8 (n : Nat) : Byte := BitVec.ofNat 8 (n % 256)

/-- SP - 1 mod 256: "0 - 1 wraps to 255" (44_stack.md R120, R121). -/
def decByte (v : Byte) : Byte := wrap8 (v.toNat + 255)

/-- SP + 1 mod 256: "255 + 1 wraps to 0" (44_stack.md R120, R122). -/
def incByte (v : Byte) : Byte := wrap8 (v.toNat + 1)

/-- `emit(v)` (00_scope.md R14, 10_state.md R30). -/
def emit (v : Byte) (s : State) : State := { s with out := s.out ++ [v] }

/-- `halt()` (00_scope.md R14, 10_state.md R28). -/
def halt (s : State) : State := { s with status := .halted }

/-- `pc <- pc + 1 + n` (40_cycle.md R86), for an instruction of `n` operand bytes. "The addition is
not reduced mod 256." -/
def advance (n : Nat) (s : State) : State := { s with pc := s.pc + 1 + n }

/-- The fault code a detail belongs to (10_state.md R29; 60_exceptions.md R131 to R133). -/
def Detail.code : Detail → FaultCode
  | .opcode _ => .unknownInstruction
  | .selector _ => .unsupportedALUOperation
  | .address _ => .outOfBounds
  | .register _ => .outOfBounds

/-- TAKING A FAULT, the one shared operation: `raise F(info)` (60_exceptions.md R130). Status becomes
FAULT, the record is written, "nothing else changes; pc is not advanced". `opcode` is the opcode byte,
or none if its fetch faulted. There is no handler address, no saved pc and NO RETURN (R137, R139):
only the reset input leaves FAULT (`resetInput` in Machine/Interface.lean). -/
def raiseFault (opcode : Option Byte) (d : Detail) (s : State) : State :=
  { s with status := .fault, fault := some { code := d.code, pc := s.pc, opcode := opcode, detail := d } }

end Sys2Proof.Machine
end

