-- ==== Sys2Proof/Machine/Operands.lean ====
section
/-! DEFINITION. The operand forms of the CORE: a register operand with its check (spec/30_encoding.md
R64, 40_cycle.md R84), and an immediate, which is its byte "taken as is" (R65) and so needs no
operation. There is no addressing mode: only PUSH and POP reach memory, through SP (R43). -/

namespace Sys2Proof.Machine

/-- The register check: byte `r` names register R`r` if `r` < 8 and else raises
`OutOfBounds(register(r))`; it is not masked (R64). -/
def checkReg (r : Byte) : Except Detail (Fin 8) :=
  if h : r.toNat < 8 then .ok ⟨r.toNat, h⟩ else .error (.register r)

/-- Runs `k` on the register that byte `r` names, or takes the fault of the register check. `opcode` is
the opcode byte of the instruction being executed, for the fault record. -/
def withReg (opcode r : Byte) (s : State) (k : Fin 8 → Outcome) : Outcome :=
  match checkReg r with
  | .error d => .next (raiseFault (some opcode) d s)
  | .ok i => k i

end Sys2Proof.Machine
end

