-- ==== Sys2Proof/Machine/Alu.lean ====
section
/-! DEFINITION. The ALU multiplexer and the arithmetic instructions (spec/43_alu.md). -/

namespace Sys2Proof.Machine

/-- `alu(op, a, b)` (R110): ADD modulo 256 (R111), MUL modulo 256 (R112), and any other selector
raises `UnsupportedALUOperation(op)` and "returns no result" (R113). -/
def alu (op : AluOp) (a b : Byte) : Except Detail Byte :=
  match op with
  | .add => .ok (wrap8 (a.toNat + b.toNat))
  | .mul => .ok (wrap8 (a.toNat * b.toNat))
  | .other => .error (.selector .other)

/-- An ALU instruction with opcode byte `opcode` that drives selector `op` (R114, R115): reg_a is
checked, then reg_b, both operands are read, then reg_a is written. -/
def aluInstr (opcode : Byte) (op : AluOp) (regA regB : Byte) (s : State) : Outcome :=
  withReg opcode regA s fun a =>
    withReg opcode regB s fun b =>
      match alu op (readReg s a) (readReg s b) with
      | .error d => .next (raiseFault (some opcode) d s)
      | .ok v => .next (advance 2 (writeReg a v s))

/-- MUL (R114). -/
def execMul (regA regB : Byte) (s : State) : Outcome := aluInstr Opcode.mul .mul regA regB s

/-- ADD (R115). That it exists only when `P_ADD_OPCODE` is the decoder's business (R82). -/
def execAdd (regA regB : Byte) (s : State) : Outcome := aluInstr Opcode.add .add regA regB s

end Sys2Proof.Machine
end

