-- ==== Sys2Proof/Machine/Basic.lean ====
section
/-! DEFINITION. Load immediate, print and halt (spec/41_basic.md). A meaning is the register check, the
effect and the advance of a step (40_cycle.md R84, R85, R86). -/

namespace Sys2Proof.Machine

/-- LDI (R100): `x[reg] <- imm mod 256`, which is `imm`, since imm is a byte. -/
def execLdi (reg imm : Byte) (s : State) : Outcome :=
  withReg Opcode.ldi reg s fun r => .next (advance 2 (writeReg r imm s))

/-- PRN (R101): `emit(x[reg])`. -/
def execPrn (reg : Byte) (s : State) : Outcome :=
  withReg Opcode.prn reg s fun r => .next (advance 1 (emit (readReg s r) s))

/-- HLT (R102): `halt()`; "the common advance ... applies". -/
def execHlt (s : State) : Outcome := .next (advance 0 (halt s))

end Sys2Proof.Machine
end

