-- ==== Sys2Proof/Machine/Stack.lean ====
section
/-! DEFINITION. The stack instructions (spec/44_stack.md): the stack is in memory, addressed by SP = R7,
and grows toward lower addresses (R120). -/

namespace Sys2Proof.Machine

/-- PUSH (R121): `x[7] <- (x[7] - 1) mod 256`, then `MemWrite(x[7], 1, x[reg])`, where "x[reg] is read
after the decrement", so PUSH R7 stores the decremented SP (D15). The write cannot fault (R42); were
it to, no part of the instruction would have happened (60_exceptions.md R138). -/
def execPush (reg : Byte) (s : State) : Outcome :=
  withReg Opcode.push reg s fun r =>
    let s1 := writeReg spIndex (decByte (readReg s spIndex)) s
    match memWrite (readReg s1 spIndex).toNat (readReg s1 r) s1 with
    | .error d => .next (raiseFault (some Opcode.push) d s)
    | .ok s2 => .next (advance 1 s2)

/-- POP (R122): `v <- MemRead(x[7], 1)`, `x[reg] <- v`, then `x[7] <- (x[7] + 1) mod 256`, where "x[7]
is read after the write to x[reg]", so POP R7 leaves v + 1 (D15). The cell is not cleared. -/
def execPop (reg : Byte) (s : State) : Outcome :=
  withReg Opcode.pop reg s fun r =>
    match memRead s (readReg s spIndex).toNat with
    | .error d => .next (raiseFault (some Opcode.pop) d s)
    | .ok v =>
      let s1 := writeReg r v s
      .next (advance 1 (writeReg spIndex (incByte (readReg s1 spIndex)) s1))

end Sys2Proof.Machine
end

