-- ==== Sys2Proof/Machine/Fetch.lean ====
section
/-! DEFINITION. Fetching an instruction from memory at the program counter, and the faults of the
phases before execute (spec/40_cycle.md R81, R82, R83). -/

namespace Sys2Proof.Machine

/-- Byte number `k` of the instruction at `pc`: `MemRead(pc + k, 1)`, from the memory as it is now
(20_memory.md R52). -/
def fetchByte (s : State) (k : Nat) : Except Detail Byte := memRead s (s.pc + k)

/-- Fetch, decode and operand fetch: 1 + n bytes in order, all before any write (R81 to R83). -/
def fetchInstr (s : State) : Except (DecodeError Detail) Instr := decodeAt s.cfg (fetchByte s)

/-- The state after a step that fails in one of these phases (R81, R82, R83; 60_exceptions.md R130). -/
def raiseDecode (e : DecodeError Detail) (s : State) : State :=
  match e with
  | .noByte opcode d => raiseFault opcode d s
  | .unknownInstruction b => raiseFault (some b) (.opcode b) s

/-- `s` with an instruction word of the opcode table placed where the next step fetches: its three
bytes from `pc` on (those that fall inside memory). A step fetches only when status is RUNNING
(R80), so status is RUNNING with no fault record; a word whose opcode byte is 0xA0 is an instruction
only on a machine with `P_ADD_OPCODE` (R11), so that parameter is set for it (log entry 1). -/
def placeWord (s : State) (nbits w : Nat) : State :=
  let bytes := tableBytes nbits w
  let put (m : Memory) (kb : Nat × Byte) : Memory :=
    if s.pc + kb.1 ≤ 255 then m.write (s.pc + kb.1) kb.2 else m
  { s with
    cfg := if bytes.head? = some Opcode.add then { s.cfg with addOpcode := true } else s.cfg
    mem := ([0, 1, 2].zip bytes).foldl put s.mem
    status := .running
    fault := none }

end Sys2Proof.Machine
end

