-- ==== Sys2Proof/Machine/Step.lean ====
section
/-! DEFINITION. One step of the CORE (spec/40_cycle.md R88). -/

namespace Sys2Proof.Machine

/-- One application of the `step` input: one whole instruction when status is RUNNING (R88), nothing
when it is HALTED or FAULT (R80, 10_state.md R34). -/
def step (s : State) : Host.Outcome State Fault Refusal :=
  match s.status with
  | .running =>
    match fetchInstr s with
    | .error e => .next (raiseDecode e s)
    | .ok i => exec i s
  | .halted => .next s
  | .fault => .next s

/-- `s` with the instruction word placed so that the very next step runs it (`placeWord`). -/
def State.withFetchWord (s : State) (nbits w : Nat) : State := placeWord s nbits w

end Sys2Proof.Machine
end

