-- ==== Sys2Proof/Machine/HostSide.lean ====
section
/-! DEFINITION. Host-side text the spec describes beside the CORE: the image text format
(spec/70_reset_and_hazards.md R153), the lines the host prints (10_state.md R37) and the assembly
syntax (30_encoding.md R70). No step uses this file. -/

namespace Sys2Proof.Machine

/-- Drops everything from the first `#` on (R153, 1). -/
def stripComment (line : List Char) : List Char := line.takeWhile (· != '#')

/-- Trims surrounding white space (R153, 2). Which characters are white space the spec leaves to the
host; the model takes Lean's `Char.isWhitespace` (log entry 6). -/
def trimSpace (line : List Char) : List Char :=
  ((line.dropWhile Char.isWhitespace).reverse.dropWhile Char.isWhitespace).reverse

/-- The base-2 value of a string of `0` and `1`, most significant digit first. -/
def binaryValue (ds : List Char) : Nat := ds.foldl (fun n d => 2 * n + (if d = '1' then 1 else 0)) 0

/-- One line of an image file: an image byte, or none where the line is skipped (R153, 3 and 4). A
literal above 255 is refused. Steps 3 and 4 are taken to the letter for the three kinds of line whose
handling 91_not_in_source.md says not to assume (log entry 13): a literal of more than 8 digits with a
value up to 255 yields its byte (`000000001` yields 0x01), and a `0b` prefix or an embedded space makes
the line one that is skipped. -/
def parseLine (line : List Char) : Except Refusal (Option Byte) :=
  let ds := trimSpace (stripComment line)
  if ds ≠ [] ∧ (ds.all fun d => d == '0' || d == '1') then
    if binaryValue ds ≤ 255 then .ok (some (BitVec.ofNat 8 (binaryValue ds))) else .error .usageError
  else .ok none

/-- The image of a text file, given by its lines (R153). Its length is checked by `loadImage`. -/
def parseImage : List (List Char) → Except Refusal (List Byte)
  | [] => .ok []
  | line :: lines =>
    match parseLine line with
    | .error r => .error r
    | .ok b? =>
      match parseImage lines with
      | .error r => .error r
      | .ok bs => .ok (b?.toList ++ bs)

/-- A register operand in assembly: `R` and the decimal index (R70). -/
def regText (r : Byte) : String := "R" ++ toString r.toNat

/-- An instruction in the assembly syntax of R70. -/
def asmText : Instr → String
  | .hlt => "HLT"
  | .push r => "PUSH " ++ regText r
  | .pop r => "POP " ++ regText r
  | .prn r => "PRN " ++ regText r
  | .ldi r v => "LDI " ++ regText r ++ "," ++ toString v.toNat
  | .add a b => "ADD " ++ regText a ++ "," ++ regText b
  | .mul a b => "MUL " ++ regText a ++ "," ++ regText b

/-- The text the host prints for emitted bytes: "the decimal value ... one value per line" (R37). -/
def printedLines (out : List Byte) : List String := out.map fun b => toString b.toNat

end Sys2Proof.Machine
end

