-- ==== Sys2Proof/Machine/Interface.lean ====
section
/-! DEFINITION. The boundary of the block (spec/10_state.md R34 to R38): the reset input, the load port,
the step input, the output port and the status outputs, and the launch of a run
(70_reset_and_hazards.md R150 to R152). -/

namespace Sys2Proof.Machine

/-- The `reset` input: every piece of state takes its value of R33, in any status (R35, 70 R150). The
parameters are the machine's, not state, and stay. -/
def resetInput (s : State) : State := State.resetWith s.cfg

/-- Whether `s` can stand "after reset and before the first step" (R36): status is RUNNING and `pc` is
0. A completed step raises `pc` and a faulting one leaves RUNNING (log entry 5). -/
def beforeFirstStep (s : State) : Bool := decide (s.status = .running) && decide (s.pc = 0)

/-- The load port: one byte `data` at one 8-bit address; at any other time "not modelled" (R36). -/
def loadPort (addr data : Byte) (s : State) : Outcome :=
  if beforeFirstStep s then .next { s with mem := s.mem.write addr.toNat data } else .refused .loadPortTooLate

/-- The bytes of an image through the load port, from address `i` on (70 R151). -/
def loadFrom (i : Nat) : List Byte → State → Outcome
  | [], s => .next s
  | b :: bs, s =>
    match loadPort (BitVec.ofNat 8 i) b s with
    | .next t => loadFrom (i + 1) bs t
    | .fault r => .fault r
    | .refused r => .refused r

/-- Loading an image: byte i goes to `mem[i]`; an image of more than 256 bytes is refused (70 R152). -/
def loadImage (image : List Byte) (s : State) : Outcome :=
  if 256 < image.length then .refused .usageError else loadFrom 0 image s

/-- The launch sequence before the first step: reset, then the image (70 R151). -/
def launch (cfg : Config) (image : List Byte) : Outcome := loadImage image (State.resetWith cfg)

/-- What the host can do to the block (R34). -/
inductive HostInput where
  | reset
  | load (addr data : Byte)
  | step
  deriving DecidableEq, Repr

/-- The block's answer to one input. -/
def applyInput (i : HostInput) (s : State) : Outcome :=
  match i with
  | .reset => .next (resetInput s)
  | .load addr data => loadPort addr data s
  | .step => step s

/-- The bytes the output port delivers between `s` and a later state `t` (R37). -/
def delivered (s t : State) : List Byte := t.out.drop s.out.length

/-- Status as a number on the status outputs (R38). -/
def Status.number : Status → Nat
  | .running => 0
  | .halted => 1
  | .fault => 2

/-- Fault code as a number on the status outputs (R38, 60_exceptions.md R130). -/
def FaultCode.number : FaultCode → Nat
  | .unknownInstruction => 1
  | .unsupportedALUOperation => 2
  | .outOfBounds => 3

/-- The status outputs: the status number and, when it is FAULT, the record (R38). -/
def statusOutputs (s : State) : Nat × Option FaultRecord :=
  (s.status.number, if s.status = .fault then s.fault else none)

/-- What the host observes at the end of a run (40_cycle.md R91). -/
structure Observation where
  status : Status
  fault : Option FaultRecord
  out : List Byte
  x : Vector Byte 8
  pc : Nat
  mem : Memory
  deriving DecidableEq, Repr

/-- The observation of a run that has ended; none while it runs (R91). -/
def observe (s : State) : Option Observation :=
  match s.status with
  | .running => none
  | .halted => some ⟨s.status, s.fault, s.out, s.x, s.pc, s.mem⟩
  | .fault => some ⟨s.status, s.fault, s.out, s.x, s.pc, s.mem⟩

end Sys2Proof.Machine
end

