-- ==== Sys2Proof/WellFormed.lean ====
section
/-! DEFINITION. Which instructions exist on a machine with given parameters, and name registers that
exist (spec/30_encoding.md R63, R64; 00_scope.md R11). An ill-formed instruction still has a meaning:
a register byte of 8 or more takes the OutOfBounds fault (40_cycle.md R84). -/

namespace Sys2Proof

/-- A register-operand byte "is valid only if r < 8" (R64). -/
def regByteOk (r : Byte) : Bool := decide (r.toNat < 8)

/-- The register-operand bytes of an instruction, in byte order (R61). LDI's `imm` is not one (R84). -/
def Instr.registerFields : Instr → List Byte
  | .hlt => []
  | .push r => [r]
  | .pop r => [r]
  | .prn r => [r]
  | .ldi r _ => [r]
  | .add a b => [a, b]
  | .mul a b => [a, b]

/-- Every register operand names one of R0 to R7 (R23, R64). -/
def Instr.registersOk (i : Instr) : Bool := i.registerFields.all regByteOk

/-- The instruction is in the opcode map of this machine: ADD only when `P_ADD_OPCODE` (R11, R63). -/
def Instr.enabled (cfg : Config) : Instr → Bool
  | .hlt => true
  | .push _ => true
  | .pop _ => true
  | .prn _ => true
  | .ldi _ _ => true
  | .add _ _ => cfg.addOpcode
  | .mul _ _ => true

/-- Well-formed on a machine with parameters `cfg`. -/
def WellFormed (cfg : Config) (i : Instr) : Bool := i.enabled cfg && i.registersOk

end Sys2Proof
end

