-- ==== Sys2Proof/Safety.lean ====
section
/-! DEFINITION. What the claims are stated in: the invariant of the machine, the end of a run, and a
sequence of instructions executed with nothing in between. -/

namespace Sys2Proof.Machine

/-- A fault record that a step of a machine with parameters `cfg` leaves beside the program counter
`pc` (spec/10_state.md R29; 60_exceptions.md R131 to R133): the recorded `pc` is the current one; an
unknown opcode is not in the map; an address is 256, reported without an opcode exactly at `pc` = 256;
a register byte is 8 or more; and the code is never UnsupportedALUOperation, which "no program can
raise" (R132). -/
def FaultRecord.consistent (cfg : Config) (pc : Nat) (r : FaultRecord) : Bool :=
  decide (r.pc = pc) && decide (r.code = r.detail.code) &&
    match r.detail with
    | .opcode b => decide (r.opcode = some b) && (lookupOpcode cfg b).isNone
    | .selector _ => false
    | .address a =>
      decide (a = 256) &&
        match r.opcode with
        | none => decide (pc = 256)
        | some b => decide (pc ≤ 255) && (lookupOpcode cfg b).isSome
    | .register i =>
      decide (8 ≤ i.toNat) &&
        match r.opcode with
        | none => false
        | some b => (lookupOpcode cfg b).isSome

/-- "`fault` is `none` while status is RUNNING or HALTED. When status is FAULT, it is a FaultRecord"
(R29). -/
def State.faultOk (s : State) : Bool :=
  match s.status, s.fault with
  | .running, none => true
  | .halted, none => true
  | .fault, some r => r.consistent s.cfg s.pc
  | _, _ => false

/-- The invariant every step keeps. That each register and cell is a byte (R21, R27) is in the types. -/
structure State.Inv (s : State) : Prop where
  /-- Memory is canonical and inside its 256 cells (R27). -/
  memory : s.mem.wf = true
  /-- "`pc` can never exceed 256" (R26). -/
  pcRange : s.pc ≤ 256
  /-- R29. -/
  fault : s.faultOk = true

/-- The run has ended (40_cycle.md R91). -/
def State.ended (s : State) : Prop := s.status ≠ .running

/-- Memory reads the same at every address. -/
def SameMemory (s t : State) : Prop := ∀ a, memRead t a = memRead s a

/-- Memory reads the same at every address but `a`. -/
def SameMemoryBut (a : Nat) (s t : State) : Prop := ∀ b, b ≠ a → memRead t b = memRead s b

/-- Every register but `r` is unchanged. -/
def SameRegsBut (r : Fin 8) (s t : State) : Prop := ∀ j, j ≠ r → readReg t j = readReg s j

/-- Status, fault record and parameters are unchanged. -/
def SameControl (s t : State) : Prop := t.status = s.status ∧ t.fault = s.fault ∧ t.cfg = s.cfg

/-- `s` stopped by a fault (60_exceptions.md R130): status FAULT, the record `{code, pc, opcode,
detail}`, everything else as in `s`. -/
def faulted (code : FaultCode) (opcode : Option Byte) (detail : Detail) (s : State) : State :=
  { s with status := .fault, fault := some ⟨code, s.pc, opcode, detail⟩ }

/-- Instructions executed one after the other "with nothing in between" (44_stack.md R123, R124). -/
def execAll : List Instr → State → Outcome
  | [], s => .next s
  | i :: is, s =>
    match exec i s with
    | .next t => execAll is t
    | .fault r => .fault r
    | .refused r => .refused r

/-- The byte that names a register in an instruction (30_encoding.md R72). -/
def regByte (r : Fin 8) : Byte := BitVec.ofNat 8 r.val

/-- The same instruction with its registers renamed; a byte that names no register stays. -/
def renameByte (σ : Fin 8 → Fin 8) (r : Byte) : Byte :=
  if h : r.toNat < 8 then regByte (σ ⟨r.toNat, h⟩) else r

/-- An instruction with its register operands renamed (10_state.md R23). -/
def renameInstr (σ : Fin 8 → Fin 8) : Instr → Instr
  | .hlt => .hlt
  | .push r => .push (renameByte σ r)
  | .pop r => .pop (renameByte σ r)
  | .prn r => .prn (renameByte σ r)
  | .ldi r v => .ldi (renameByte σ r) v
  | .add a b => .add (renameByte σ a) (renameByte σ b)
  | .mul a b => .mul (renameByte σ a) (renameByte σ b)

/-- `t` is `s` with its registers renamed: register `σ j` of `t` holds what register `j` of `s` holds. -/
def Renamed (σ : Fin 8 → Fin 8) (s t : State) : Prop :=
  (∀ j, readReg t (σ j) = readReg s j) ∧ t.pc = s.pc ∧ t.mem = s.mem ∧ t.out = s.out ∧ SameControl s t

/-- The address of the i-th of a row of pushes, from 0, when SP is `sp` before them: sp - (i + 1)
modulo 256 (44_stack.md R124). -/
def pushAddr (sp : Byte) (i : Nat) : Nat := (sp.toNat + 255 * (i + 1)) % 256

/-- Memory holds the bytes of instruction `i` from address `a` on, all inside memory. -/
def HoldsInstr (s : State) (a : Nat) (i : Instr) : Prop :=
  ∀ k b, (encode i)[k]? = some b → memRead s (a + k) = .ok b

end Sys2Proof.Machine
end

