-- ==== Sys2Proof/Certificates/Slice0/Obligations.lean ====
section
/-! DEFINITION. The statements for the provers. Each docstring names the rules of spec/ it formalises;
where a clause is an inference the spec itself marks "[derived]", or rests on a log entry of this model,
the docstring says so. -/

section
open Sys2Proof Sys2Proof.Machine

/-! ## Encoding -/

/-- Words written out from the layouts of R61 and the opcode map of R63, one for each row, decode to
the instruction they stand for. PUSH 0x45, POP 0x46 and ADD 0xA0 are the spec's decisions D3 and D4
(log entry 3). -/
def Obligations.DecodeReadsTheSpecsWords : Prop :=
  decode Config.default [0b00000001] = .ok (.hlt, []) ∧
  decode Config.default [0b01000101, 3] = .ok (.push 3, []) ∧
  decode Config.default [0b01000110, 7] = .ok (.pop 7, []) ∧
  decode Config.default [0b01000111, 0, 0b00000001] = .ok (.prn 0, [0b00000001]) ∧
  decode Config.default [0b10000010, 1, 9] = .ok (.ldi 1 9, []) ∧
  decode Config.default [0b10100010, 0, 1] = .ok (.mul 0 1, []) ∧
  decode Config.withAdd [0b10100000, 2, 3] = .ok (.add 2 3, []) ∧
  decode Config.default [0b10100000, 2, 3] = .error (.unknownInstruction 0b10100000)

/-- Decoding an encoded instruction gives it back, with every operand byte at every value, on every
machine that has it (R62, R72; WellFormed instructions are among them). -/
def Obligations.DecodeOfEncodeGivesItBack : Prop :=
  ∀ (cfg : Config) (i : Instr) (rest : List Byte), i.enabled cfg = true →
    decode cfg (encode i ++ rest) = .ok (i, rest)

/-- What the decoder answers is an instruction the machine has, and the bytes read are its encoding:
no two words decode to one instruction. -/
def Obligations.EncodeOfDecodeGivesTheBytes : Prop :=
  ∀ (cfg : Config) (bs : List Byte) (i : Instr) (rest : List Byte), decode cfg bs = .ok (i, rest) →
    i.enabled cfg = true ∧ bs = encode i ++ rest

/-- R68: the decoder is total, and "each of the 256 opcode bytes maps to exactly one of the rows, or to
UnknownInstruction", with the counts of illegal bytes that R67 gives. -/
def Obligations.OpcodeByteIsOneRowOrUnknown : Prop :=
  (∀ (cfg : Config) (b : Byte) (op : Op),
    lookupOpcode cfg b = some op ↔ b = op.code ∧ (op = .add → cfg.addOpcode = true)) ∧
  (∀ (cfg : Config) (b : Byte) (rest : List Byte),
    decode cfg (b :: rest) = .error (.unknownInstruction b) ↔
      ∀ op : Op, b = op.code → op = .add ∧ cfg.addOpcode = false) ∧
  (∀ cfg : Config, ((List.range 256).filter fun n => (lookupOpcode cfg (BitVec.ofNat 8 n)).isNone).length =
    if cfg.addOpcode then 249 else 250)

/-- The lengths 1, 2 and 3 are the lengths of the encodings and the advances of `pc` (R60, R86, and R89,
which the spec marks as its own inference from them). -/
def Obligations.InstructionLengthsAreThePcAdvances : Prop :=
  ∀ (i : Instr) (s : State), i.registersOk = true →
    ∃ t, exec i s = .next t ∧ t.pc = s.pc + (encode i).length ∧
      (encode i).length =
        match i with
        | .hlt => 1
        | .push _ => 2
        | .pop _ => 2
        | .prn _ => 2
        | .ldi _ _ => 3
        | .add _ _ => 3
        | .mul _ _ => 3

/-! ## The step -/

/-- A step of a running machine executes the instruction its decoder reads from the bytes at `pc`, and
does nothing else around it (R88): the check of registers and the advance are in `exec`. -/
def Obligations.StepRunsTheDecodedInstruction : Prop :=
  ∀ (s : State) (bs rest : List Byte) (i : Instr), s.status = .running →
    (∀ k b, bs[k]? = some b → memRead s (s.pc + k) = .ok b) →
    decode s.cfg bs = .ok (i, rest) → step s = exec i s

/-- A step of a running machine executes the instruction whose encoding memory holds at `pc`, if the
machine has that instruction; and it executes no other (R81, R82, R83, R85, R88). -/
def Obligations.StepRunsTheEncodedInstruction : Prop :=
  ∀ (s : State) (i : Instr), s.status = .running → i.enabled s.cfg = true → HoldsInstr s s.pc i →
    step s = exec i s ∧ ∀ j, j.enabled s.cfg = true → HoldsInstr s s.pc j → j = i

/-- R80: when status is HALTED or FAULT a step changes nothing, and only reset leaves these states. -/
def Obligations.StoppedMachineDoesNothing : Prop :=
  ∀ s : State, s.status ≠ .running →
    step s = .next s ∧
    (∀ (n : Nat), Host.Core.run Sys2Proof.core n s = .next s) ∧
    (∀ (inp : HostInput) (t : State), applyInput inp s = .next t → t ≠ s → inp = .reset) ∧
    (∃ t, applyInput .reset s = .next t ∧ t.status = .running)

/-- The opcode fetch past memory: at `pc` = 256, and in any state with `pc` above 255, a step stops with
OutOfBounds(address(pc)) and no opcode in the record (part of R81, R130). -/
def Obligations.OpcodeFetchPastMemoryFaults : Prop :=
  ∀ s : State, s.status = .running → 255 < s.pc →
    step s = .next (faulted .outOfBounds none (.address s.pc) s)

/-- R131: an opcode byte that is not in the map stops the run with UnknownInstruction (code 1), recorded
with the byte as opcode and as detail and its address as pc. The map is written out. -/
def Obligations.UnknownOpcodeStopsTheRun : Prop :=
  FaultCode.unknownInstruction.number = 1 ∧
  ∀ (s : State) (b : Byte), s.status = .running → memRead s s.pc = .ok b →
    b ∉ ([0x01, 0x45, 0x46, 0x47, 0x82, 0xA2] : List Byte) → (b = 0xA0 → s.cfg.addOpcode = false) →
    step s = .next (faulted .unknownInstruction (some b) (.opcode b) s)

/-- The operand fetch past memory: a known instruction whose operand bytes run past address 255 stops
with OutOfBounds(address(256)), before any register check, whatever the operand bytes are (R83, R136;
that the address is 256 in every case is the spec's own inference in R133). -/
def Obligations.OperandFetchPastMemoryFaults : Prop :=
  ∀ (s : State) (op : Op), s.status = .running → memRead s s.pc = .ok op.code →
    (op = .add → s.cfg.addOpcode = true) → 255 < s.pc + op.format.operands →
    step s = .next (faulted .outOfBounds (some op.code) (.address 256) s)

/-- R84: the register fields are checked in byte order, and the first byte of 8 or more stops the run
with OutOfBounds(register(r)); LDI's immediate is not a register field. Said of the execute phase and
of the whole step. -/
def Obligations.FirstBadRegisterByteFaults : Prop :=
  (∀ (i : Instr) (r : Byte) (s : State), i.registerFields.find? (fun b => decide (8 ≤ b.toNat)) = some r →
    exec i s = .next (faulted .outOfBounds (some i.op.code) (.register r) s) ∧
    (s.status = .running → i.enabled s.cfg = true → HoldsInstr s s.pc i →
      step s = .next (faulted .outOfBounds (some i.op.code) (.register r) s))) ∧
  (∀ (r v : Byte) (s : State), r.toNat < 8 → ∃ t, exec (.ldi r v) s = .next t ∧ t.status = s.status)

/-- R138: a step that stops with a fault leaves every register, `pc`, every memory cell and the output
as they were; only status and the fault record differ. -/
def Obligations.FaultsArePrecise : Prop :=
  ∀ s t : State, s.status = .running → step s = .next t → t.status = .fault →
    (∀ j, readReg t j = readReg s j) ∧ t.pc = s.pc ∧ SameMemory s t ∧ t.out = s.out ∧ t.cfg = s.cfg ∧
    ∃ r, t.fault = some r ∧ t = { s with status := .fault, fault := some r } ∧ r.pc = s.pc

/-- Every step and every instruction has a next state: no fault or refusal of the model, since every
error of the CORE is a state (R16; log entry 4 for the form). -/
def Obligations.StepAndExecAlwaysAnswerANextState : Prop :=
  (∀ s : State, ∃ t, step s = .next t) ∧ ∀ (i : Instr) (s : State), ∃ t, exec i s = .next t

/-- R28: RUNNING becomes HALTED exactly by HLT (opcode byte 0x01) and FAULT only by a fault, which
leaves a record; HALTED and FAULT are left only by reset. -/
def Obligations.StatusChangesOnlyAsRuled : Prop :=
  (∀ s t : State, s.status = .running → step s = .next t →
    (t.status = .halted ↔ memRead s s.pc = .ok 0x01) ∧
    (t.status = .fault → ∃ r, t.fault = some r ∧ r.pc = s.pc) ∧
    (t.status ≠ .fault → t.fault = s.fault)) ∧
  (∀ (inp : HostInput) (s t : State), s.status ≠ .running → applyInput inp s = .next t →
    t.status ≠ s.status → inp = .reset ∧ t.status = .running)

/-- R25: after a step that does not fault, `pc` has advanced by 1 + n, the length of the instruction
whose opcode byte it pointed at; after one that faults it has not moved. -/
def Obligations.PcAdvancesByTheInstructionLength : Prop :=
  ∀ s t : State, s.status = .running → step s = .next t →
    (t.status ≠ .fault → ∃ op : Op, memRead s s.pc = .ok op.code ∧ t.pc = s.pc + (1 + op.format.operands)) ∧
    (t.status = .fault → t.pc = s.pc)

/-! ## The instructions -/

/-- R100, whole: LDI writes its immediate, unchanged, to the register it names; nothing else but `pc`
changes; a register byte of 8 or more and an operand past address 255 stop the run. -/
def Obligations.LoadImmediateWritesItsRegister : Prop :=
  (∀ (r : Fin 8) (v : Byte) (s : State), ∃ t, exec (.ldi (regByte r) v) s = .next t ∧
    readReg t r = v ∧ SameRegsBut r s t ∧ SameMemory s t ∧ SameControl s t ∧ t.out = s.out ∧ t.pc = s.pc + 3) ∧
  (∀ (b v : Byte) (s : State), 8 ≤ b.toNat →
    exec (.ldi b v) s = .next (faulted .outOfBounds (some 0x82) (.register b) s)) ∧
  (∀ s : State, s.status = .running → memRead s s.pc = .ok 0x82 →
    (255 < s.pc + 2 → step s = .next (faulted .outOfBounds (some 0x82) (.address 256) s)) ∧
    ∀ b v, memRead s (s.pc + 1) = .ok b → memRead s (s.pc + 2) = .ok v → step s = exec (.ldi b v) s)

/-- R101, whole: PRN appends the register it names to the output, which the output port delivers and the
host prints in decimal on a line of its own (R37); no register or memory cell changes; nothing is emitted when the step faults. -/
def Obligations.PrintEmitsItsRegister : Prop :=
  (∀ (r : Fin 8) (s : State), ∃ t, exec (.prn (regByte r)) s = .next t ∧
    t.out = s.out ++ [readReg s r] ∧ delivered s t = [readReg s r] ∧
    printedLines (delivered s t) = [toString (readReg s r).toNat] ∧
    (∀ j, readReg t j = readReg s j) ∧ SameMemory s t ∧ SameControl s t ∧ t.pc = s.pc + 2) ∧
  (∀ (b : Byte) (s : State), 8 ≤ b.toNat →
    exec (.prn b) s = .next (faulted .outOfBounds (some 0x47) (.register b) s)) ∧
  (∀ s : State, s.status = .running → memRead s s.pc = .ok 0x47 →
    (255 < s.pc + 1 → step s = .next (faulted .outOfBounds (some 0x47) (.address 256) s)) ∧
    ∀ b, memRead s (s.pc + 1) = .ok b → step s = exec (.prn b) s)

/-- HLT halts, advances `pc` by 1 (the spec's own inference, marked [derived] in R102), changes no
register, memory cell or output, and no step after it changes anything. It faults never, at address
255 neither. -/
def Obligations.HaltStopsTheRun : Prop :=
  (∀ s : State, ∃ t, exec .hlt s = .next t ∧ t.status = .halted ∧ t.pc = s.pc + 1 ∧
    (∀ j, readReg t j = readReg s j) ∧ SameMemory s t ∧ t.out = s.out ∧ t.fault = s.fault ∧ t.cfg = s.cfg ∧
    ∀ n, Host.Core.run Sys2Proof.core n t = .next t) ∧
  (∀ s : State, s.status = .running → memRead s s.pc = .ok 0x01 → step s = exec .hlt s)

/-- R114, whole: MUL writes the product of its two registers modulo 256 to the first; the second is
unchanged unless it is the first; both are read before the write; reg_a is checked before reg_b. -/
def Obligations.MultiplyWritesTheProduct : Prop :=
  (∀ (a b : Fin 8) (s : State), ∃ t, exec (.mul (regByte a) (regByte b)) s = .next t ∧
    (readReg t a).toNat = ((readReg s a).toNat * (readReg s b).toNat) % 256 ∧
    SameRegsBut a s t ∧ SameMemory s t ∧ SameControl s t ∧ t.out = s.out ∧ t.pc = s.pc + 3) ∧
  (∀ (a b : Byte) (s : State),
    (8 ≤ a.toNat → exec (.mul a b) s = .next (faulted .outOfBounds (some 0xA2) (.register a) s)) ∧
    (a.toNat < 8 → 8 ≤ b.toNat →
      exec (.mul a b) s = .next (faulted .outOfBounds (some 0xA2) (.register b) s))) ∧
  (∀ s : State, s.status = .running → memRead s s.pc = .ok 0xA2 →
    (255 < s.pc + 2 → step s = .next (faulted .outOfBounds (some 0xA2) (.address 256) s)) ∧
    ∀ a b, memRead s (s.pc + 1) = .ok a → memRead s (s.pc + 2) = .ok b → step s = exec (.mul a b) s)

/-- R115, whole: ADD writes the sum of its two registers modulo 256 to the first, like MUL; it exists
only when `P_ADD_OPCODE` is true, and otherwise byte 0xA0 is an unknown opcode. Its opcode byte is the
spec's decision D4 (log entry 3). -/
def Obligations.AddWritesTheSum : Prop :=
  (∀ (a b : Fin 8) (s : State), ∃ t, exec (.add (regByte a) (regByte b)) s = .next t ∧
    (readReg t a).toNat = ((readReg s a).toNat + (readReg s b).toNat) % 256 ∧
    SameRegsBut a s t ∧ SameMemory s t ∧ SameControl s t ∧ t.out = s.out ∧ t.pc = s.pc + 3) ∧
  (∀ (a b : Byte) (s : State),
    (8 ≤ a.toNat → exec (.add a b) s = .next (faulted .outOfBounds (some 0xA0) (.register a) s)) ∧
    (a.toNat < 8 → 8 ≤ b.toNat →
      exec (.add a b) s = .next (faulted .outOfBounds (some 0xA0) (.register b) s))) ∧
  (∀ s : State, s.status = .running → memRead s s.pc = .ok 0xA0 →
    (s.cfg.addOpcode = false → step s = .next (faulted .unknownInstruction (some 0xA0) (.opcode 0xA0) s)) ∧
    (s.cfg.addOpcode = true →
      (255 < s.pc + 2 → step s = .next (faulted .outOfBounds (some 0xA0) (.address 256) s)) ∧
      ∀ a b, memRead s (s.pc + 1) = .ok a → memRead s (s.pc + 2) = .ok b → step s = exec (.add a b) s))

/-- R121, whole: PUSH decrements SP modulo 256 and writes the register it names, read after the
decrement, at the new SP, and nowhere else; a register byte of 8 or more stops the run with SP
unchanged; the current instruction uses the operand it fetched, wherever the write lands. The memory
is in canonical form, which every input keeps (StepKeepsTheInvariant). The opcode byte is the spec's
decision D3 (log entry 3). -/
def Obligations.PushStoresAtTheDecrementedSp : Prop :=
  (∀ (r : Fin 8) (s : State), s.mem.wf = true → ∃ t, exec (.push (regByte r)) s = .next t ∧
    (readReg t 7).toNat = ((readReg s 7).toNat + 255) % 256 ∧ SameRegsBut 7 s t ∧
    memRead t (decByte (readReg s 7)).toNat = .ok (if r = 7 then decByte (readReg s 7) else readReg s r) ∧
    (readReg t 7).toNat = (decByte (readReg s 7)).toNat ∧
    SameMemoryBut (decByte (readReg s 7)).toNat s t ∧ SameControl s t ∧ t.out = s.out ∧ t.pc = s.pc + 2) ∧
  (∀ (b : Byte) (s : State), 8 ≤ b.toNat →
    exec (.push b) s = .next (faulted .outOfBounds (some 0x45) (.register b) s)) ∧
  (∀ s : State, s.status = .running → memRead s s.pc = .ok 0x45 →
    (255 < s.pc + 1 → step s = .next (faulted .outOfBounds (some 0x45) (.address 256) s)) ∧
    ∀ b, memRead s (s.pc + 1) = .ok b → step s = exec (.push b) s)

/-- R122, whole: POP reads the byte at SP into the register it names and then increments SP modulo 256,
read after that write, so POP R7 leaves the byte plus 1; no memory cell changes. The opcode byte is
the spec's decision D3 (log entry 3). -/
def Obligations.PopReadsAtSpAndIncrements : Prop :=
  (∀ (r : Fin 8) (s : State), ∃ (v : Byte) (t : State), memRead s (readReg s 7).toNat = .ok v ∧
    exec (.pop (regByte r)) s = .next t ∧
    (r ≠ 7 → readReg t r = v ∧ (readReg t 7).toNat = ((readReg s 7).toNat + 1) % 256) ∧
    (r = 7 → (readReg t 7).toNat = (v.toNat + 1) % 256) ∧
    (∀ j, j ≠ r → j ≠ 7 → readReg t j = readReg s j) ∧
    SameMemory s t ∧ SameControl s t ∧ t.out = s.out ∧ t.pc = s.pc + 2) ∧
  (∀ (b : Byte) (s : State), 8 ≤ b.toNat →
    exec (.pop b) s = .next (faulted .outOfBounds (some 0x46) (.register b) s)) ∧
  (∀ s : State, s.status = .running → memRead s s.pc = .ok 0x46 →
    (255 < s.pc + 1 → step s = .next (faulted .outOfBounds (some 0x46) (.address 256) s)) ∧
    ∀ b, memRead s (s.pc + 1) = .ok b → step s = exec (.pop b) s)

/-- R23: "No instruction treats R0 to R6 differently from each other", and every register operand may
name any register: renaming registers by a bijection that keeps R7 renames the result. -/
def Obligations.RegistersZeroToSixAreAlike : Prop :=
  ∀ (σ : Fin 8 → Fin 8), Function.Injective σ → σ 7 = 7 →
    ∀ (i : Instr) (s s' : State), i.registersOk = true → Renamed σ s s' →
      ∃ t t', exec i s = .next t ∧ exec (renameInstr σ i) s' = .next t' ∧ Renamed σ t t' ∧
        t.pc = s.pc + i.length ∧ t.fault = s.fault

/-! ## The ALU -/

/-- R110, R111, R112: the multiplexer gives the sum and the product modulo 256, and raises for any other
selector. -/
def Obligations.AluComputesModulo256 : Prop :=
  ∀ a b : Byte,
    (∃ v, alu .add a b = .ok v ∧ v.toNat = (a.toNat + b.toNat) % 256) ∧
    (∃ v, alu .mul a b = .ok v ∧ v.toNat = (a.toNat * b.toNat) % 256) ∧
    alu .other a b = .error (.selector .other)

/-- The block-level rule of R113 and R132: an instruction that drove another selector would stop with
UnsupportedALUOperation and write nothing; and, as the spec infers in R132 ([derived]), no step raises
that fault. -/
def Obligations.UnsupportedSelectorStopsAndIsNeverDriven : Prop :=
  (∀ (opcode : Byte) (a b : Fin 8) (s : State),
    aluInstr opcode .other (regByte a) (regByte b) s =
      .next (faulted .unsupportedALUOperation (some opcode) (.selector .other) s)) ∧
  (∀ (s t : State) (r : FaultRecord), s.status = .running → s.fault = none → step s = .next t →
    t.fault = some r → r.code ≠ .unsupportedALUOperation)

/-- The two facts the spec infers in R116 ([derived]): ADD and MUL are commutative, and reading operands
and result as two's-complement signed bytes gives the same result bits. -/
def Obligations.AluIsCommutativeAndSignBlind : Prop :=
  ∀ a b : Byte,
    alu .add a b = alu .add b a ∧ alu .mul a b = alu .mul b a ∧
    alu .add a b = .ok (BitVec.ofInt 8 (a.toInt + b.toInt)) ∧
    alu .mul a b = .ok (BitVec.ofInt 8 (a.toInt * b.toInt))

/-! ## Memory -/

/-- R42: `MemWrite` writes one byte at any address of memory and raises OutOfBounds above it. -/
def Obligations.MemWriteWritesOneByteOrRaises : Prop :=
  ∀ (s : State) (a : Nat) (v : Byte), s.mem.wf = true →
    (255 < a → memWrite a v s = .error (.address a)) ∧
    (a ≤ 255 → ∃ t, memWrite a v s = .ok t ∧ memRead t a = .ok v ∧ SameMemoryBut a s t ∧
      t = { s with mem := t.mem } ∧ t.mem.wf = true)

/-- R49: a read returns the most recent write to that cell in program order, or, "if no write has
happened", what the cell held before. -/
def Obligations.ReadReturnsTheMostRecentWrite : Prop :=
  ∀ (s : State) (ws : List (Byte × Byte)) (a : Nat), s.mem.wf = true → a ≤ 255 →
    memRead { s with mem := ws.foldl (fun m w => m.write w.1.toNat w.2) s.mem } a =
      match ws.reverse.find? (fun w => decide (w.1.toNat = a)) with
      | some w => .ok w.2
      | none => memRead s a

/-- Only PUSH writes memory, and only the byte at the decremented SP (part of R43). -/
def Obligations.OnlyPushWritesMemory : Prop :=
  ∀ s t : State, s.mem.wf = true → step s = .next t →
    SameMemory s t ∨ (s.status = .running ∧ memRead s s.pc = .ok 0x45 ∧
      SameMemoryBut (decByte (readReg s 7)).toNat s t)

/-- Part of R157: a byte that PUSH writes where the next instruction's opcode stands is the opcode byte
the next step fetches (said for HLT and for bytes that are no opcode), and a PUSH that overwrites its own
operand byte keeps its own effect. That any other pushed byte, opcode or operand, is fetched follows from
PushStoresAtTheDecrementedSp and StepRunsTheDecodedInstruction. -/
def Obligations.PushedByteIsFetchedNext : Prop :=
  ∀ (s : State) (r : Fin 8), s.mem.wf = true → s.status = .running →
    HoldsInstr s s.pc (.push (regByte r)) →
    let v := if r = 7 then decByte (readReg s 7) else readReg s r
    ((decByte (readReg s 7)).toNat = s.pc + 2 → ∃ t, step s = .next t ∧ memRead t t.pc = .ok v ∧
      (v = 0x01 → step t = exec .hlt t) ∧
      (lookupOpcode s.cfg v = none →
        step t = .next (faulted .unknownInstruction (some v) (.opcode v) t))) ∧
    ((decByte (readReg s 7)).toNat = s.pc + 1 → ∃ t, step s = .next t ∧
      memRead t (s.pc + 1) = .ok v ∧ readReg t 7 = decByte (readReg s 7) ∧ SameRegsBut 7 s t)

/-! ## Output and parameters -/

/-- A byte stays in the output once emitted, and only PRN adds one (R30, R37, R43). -/
def Obligations.OutputGrowsOnlyByPrint : Prop :=
  ∀ s t : State, step s = .next t →
    (t.out = s.out ∧ delivered s t = []) ∨
    (s.status = .running ∧ memRead s s.pc = .ok 0x47 ∧ ∃ r, t.out = s.out ++ [readReg s r] ∧
      delivered s t = [readReg s r])

/-- No instruction reads the output trace (part of R31): two states that differ only in it take steps
that differ only in it, and deliver the same bytes. -/
def Obligations.StepDoesNotReadTheOutput : Prop :=
  ∀ (s t : State) (o : List Byte), step s = .next t →
    step { s with out := o } = .next { t with out := o ++ delivered s t }

/-- The parameters are "configuration, not state" (10_state.md): no input changes them (log entry 1 for
their place in State). -/
def Obligations.NoInputChangesTheParameters : Prop :=
  ∀ (inp : HostInput) (s t : State), applyInput inp s = .next t → t.cfg = s.cfg

/-- R38: the numbers on the status outputs, and the fault record exactly when status is FAULT. -/
def Obligations.StatusOutputsAreNumbered : Prop :=
  Status.running.number = 0 ∧ Status.halted.number = 1 ∧ Status.fault.number = 2 ∧
  FaultCode.unknownInstruction.number = 1 ∧ FaultCode.unsupportedALUOperation.number = 2 ∧
  FaultCode.outOfBounds.number = 3 ∧
  ∀ s : State, (statusOutputs s).1 = s.status.number ∧
    (s.status = .fault → (statusOutputs s).2 = s.fault) ∧ (s.status ≠ .fault → (statusOutputs s).2 = none)

/-! ## Invariants -/

/-- The reset state of every machine meets the invariant (log entry 7 for what it says). -/
def Obligations.ResetMeetsTheInvariant : Prop :=
  State.reset.Inv ∧ ∀ cfg : Config, (State.resetWith cfg).Inv

/-- Every step keeps the invariant: memory canonical and inside its 256 cells (R27), `pc` at most 256
(R26, the spec's own inference), the fault record present exactly when status is FAULT (R29) and one
that R131 and R133 allow. -/
def Obligations.StepKeepsTheInvariant : Prop :=
  ∀ s t : State, s.Inv → step s = .next t → t.Inv

/-- Every input of the boundary keeps the invariant, and so does loading an image: the state a run
starts from meets it, whatever the image. -/
def Obligations.InputsAndImagesKeepTheInvariant : Prop :=
  (∀ (inp : HostInput) (s t : State), s.Inv → applyInput inp s = .next t → t.Inv) ∧
  (∀ (cfg : Config) (image : List Byte) (s : State), launch cfg image = .next s → s.Inv)

/-! ## Runs -/

/-- Termination, the spec's own inference in R90 ([derived]): from `pc` = 0 a run ends within 257 steps,
and in general from any `pc` within 257 - pc; it has then ended for good. -/
def Obligations.EveryRunEndsWithin257Steps : Prop :=
  ∀ s : State, s.pc ≤ 256 → ∀ n, 257 - s.pc ≤ n →
    ∃ t, Host.Core.run Sys2Proof.core n s = .next t ∧ t.status ≠ .running

/-- A launched run ends, for every image that fits (R90, R151; [derived] in the spec): in HALTED without
a fault record or in FAULT with one, and is then observable (R91). -/
def Obligations.EveryLaunchedRunEnds : Prop :=
  ∀ (cfg : Config) (image : List Byte), image.length ≤ 256 →
    ∃ s t, launch cfg image = .next s ∧ Host.Core.run Sys2Proof.core 257 s = .next t ∧
      ((t.status = .halted ∧ t.fault = none) ∨ (t.status = .fault ∧ t.fault ≠ none)) ∧
      ∃ o, observe t = some o ∧ o.out = t.out ∧ o.status = t.status ∧ o.fault = t.fault ∧ o.x = t.x ∧
        o.pc = t.pc ∧ o.mem = t.mem

/-- R152: an image of at most 256 bytes is written into memory from address 0, the cells beyond it stay 0
and everything else is as after reset; a longer image is refused before any step. -/
def Obligations.LaunchPlacesTheImage : Prop :=
  ∀ (cfg : Config) (image : List Byte),
    (image.length ≤ 256 → ∃ s, launch cfg image = .next s ∧
      (∀ a, a ≤ 255 → memRead s a = .ok (image[a]?.getD 0)) ∧
      s = { State.resetWith cfg with mem := s.mem }) ∧
    (256 < image.length → launch cfg image = .refused .usageError)

/-- The load port writes one byte in any state with RUNNING and `pc` = 0, and is refused after any step
of a running machine (R36; that such states are the ones before the first step is log entry 5, an
inference of this model). -/
def Obligations.LoadPortWritesOnlyBeforeTheFirstStep : Prop :=
  (∀ (s : State) (addr data : Byte), s.mem.wf = true → s.status = .running → s.pc = 0 →
    ∃ t, loadPort addr data s = .next t ∧ memRead t addr.toNat = .ok data ∧
      SameMemoryBut addr.toNat s t ∧ t = { s with mem := t.mem }) ∧
  (∀ (s t : State) (addr data : Byte), s.status = .running → step s = .next t →
    loadPort addr data t = .refused .loadPortTooLate)

/-- R150: reset, in any status, puts every piece of state at its value of the table of R33: R0 to R6
zero, SP at `P_SP_INIT`, `pc` 0, all 256 cells zero, RUNNING, no fault, empty output. -/
def Obligations.ResetSetsEveryPieceOfState : Prop :=
  ∀ s : State, ∃ t, applyInput .reset s = .next t ∧ (∀ j, j ≠ 7 → readReg t j = 0) ∧
    readReg t 7 = s.cfg.spInit ∧ t.pc = 0 ∧ (∀ a, a ≤ 255 → memRead t a = .ok 0) ∧ t.status = .running ∧
    t.fault = none ∧ t.out = []

/-! ## The stack -/

/-- The round trip the spec infers in R123 ([derived]): PUSH Ra then POP Rb moves the value of Ra to Rb,
restores SP (unless b = 7, where SP ends one above the value) and leaves the value in the cell below
it; with a = 7 the value is the decremented SP. Two steps do this from a program in memory, provided
the push does not overwrite the bytes of the POP. -/
def Obligations.PushThenPopRoundTrips : Prop :=
  ∀ (a b : Fin 8) (s : State), s.mem.wf = true →
    let v := if a = 7 then decByte (readReg s 7) else readReg s a
    ∃ t, execAll [.push (regByte a), .pop (regByte b)] s = .next t ∧
      (b ≠ 7 → readReg t b = v ∧ readReg t 7 = readReg s 7) ∧
      (b = 7 → (readReg t 7).toNat = (v.toNat + 1) % 256) ∧
      (∀ j, j ≠ b → j ≠ 7 → readReg t j = readReg s j) ∧
      memRead t (pushAddr (readReg s 7) 0) = .ok v ∧ SameMemoryBut (pushAddr (readReg s 7) 0) s t ∧
      SameControl s t ∧ t.out = s.out ∧ t.pc = s.pc + 4 ∧
      (s.status = .running → HoldsInstr s s.pc (.push (regByte a)) → HoldsInstr s (s.pc + 2) (.pop (regByte b)) →
        pushAddr (readReg s 7) 0 ≠ s.pc + 2 → pushAddr (readReg s 7) 0 ≠ s.pc + 3 →
        Host.Core.run Sys2Proof.core 2 s = .next t)

/-- Nesting, the spec's inference in R124 ([derived]): k pushes followed by k pops, of registers other
than R7, restore SP and deliver the values in reverse order, to each register the value of the last pop
into it (the first 256 pops; what lies deeper was overwritten); the pushed values stay in the cells below
SP, each but where one of a later push, 256 further on, overwrote it; everything else is unchanged. -/
def Obligations.NestedPushesPopInReverse : Prop :=
  ∀ (s : State) (ps qs : List (Fin 8)), s.mem.wf = true → ps.length = qs.length →
    7 ∉ ps → 7 ∉ qs →
    ∃ t, execAll (ps.map (fun r => .push (regByte r)) ++ qs.map (fun r => .pop (regByte r))) s = .next t ∧
      readReg t 7 = readReg s 7 ∧
      (∀ (j : Nat) (q p : Fin 8), j < 256 → qs[j]? = some q → ps[ps.length - 1 - j]? = some p →
        (∀ j', j < j' → qs[j']? ≠ some q) → readReg t q = readReg s p) ∧
      (∀ r, r ∉ qs → readReg t r = readReg s r) ∧
      (∀ (i : Nat) (p : Fin 8), ps[i]? = some p → ps.length ≤ i + 256 →
        memRead t (pushAddr (readReg s 7) i) = .ok (readReg s p)) ∧
      (∀ a, (∀ i, i < ps.length → a ≠ pushAddr (readReg s 7) i) → memRead t a = memRead s a) ∧
      SameControl s t ∧ t.out = s.out ∧ t.pc = s.pc + 4 * ps.length

/-! ## The image text -/

/-- A line of eight binary digits, followed by white space, a `#` and any comment, yields the byte they
spell; a line that begins with `#` is skipped (R153, its four-step reading; log entry 6). -/
def Obligations.BinaryLineYieldsItsByte : Prop :=
  (∀ (b : Byte) (comment : List Char),
    parseLine ((List.range 8).map (fun k => if b.getLsbD (7 - k) then '1' else '0') ++ ' ' :: '#' :: comment) =
      .ok (some b)) ∧
  (∀ comment : List Char, parseLine ('#' :: comment) = .ok none)

end
end

