-- ==== Sys2Proof/Laws/Decode.lean ====
section
/-! SUPPORT. What the opcode lookup and the decoder answer, said once. -/

namespace Sys2Proof

theorem lookupOpcode_code (cfg : Config) (op : Op) :
    lookupOpcode cfg op.code = if op = .add then (if cfg.addOpcode then some .add else none) else some op := by
  obtain ⟨sp, add⟩ := cfg
  cases add <;> cases op <;> rfl

/-- A row found is the row of its byte. -/
theorem code_of_lookupOpcode {cfg : Config} {b : Byte} {op : Op} (h : lookupOpcode cfg b = some op) :
    b = op.code := by
  have hm : (b, op) ∈ opcodeMap cfg := by
    obtain ⟨l₁, l₂, hl, -⟩ := List.lookup_eq_some_iff.mp h
    simp [hl]
  have hall : ∀ c ∈ opcodeMap cfg, c.1 = c.2.code := by
    obtain ⟨sp, add⟩ := cfg
    cases add <;> simp [opcodeMap, Op.code]
  exact hall _ hm

/-- An instruction's own opcode byte is looked up as its row where the instruction is enabled. -/
theorem lookupOpcode_op {cfg : Config} {i : Instr} (h : i.enabled cfg = true) :
    lookupOpcode cfg i.op.code = some i.op := by
  rw [lookupOpcode_code]
  cases i <;> simp_all [Instr.op, Instr.enabled]

/-- The opcode byte of an encoding is that of its row. -/
theorem encode_head (i : Instr) : (encode i)[0]? = some i.op.code := by cases i <;> rfl

/-- The length of an encoding is the length of R60. -/
theorem encode_length (i : Instr) : (encode i).length = i.length := by cases i <;> rfl

/-- The decoder answers an enabled instruction wherever the reader gives its bytes. -/
theorem decodeAt_of_bytes {ε : Type} {cfg : Config} {read : Nat → Except ε Byte} {i : Instr}
    (hi : i.enabled cfg = true) (h : ∀ k b, (encode i)[k]? = some b → read k = .ok b) :
    decodeAt cfg read = .ok i := by
  have h0 := h 0 _ (encode_head i)
  simp only [decodeAt, h0, lookupOpcode_op hi]
  cases i with
  | hlt => rfl
  | push r => simp [Instr.op, readOperands, readOne, readOperand, h 1 r rfl]
  | pop r => simp [Instr.op, readOperands, readOne, readOperand, h 1 r rfl]
  | prn r => simp [Instr.op, readOperands, readOne, readOperand, h 1 r rfl]
  | ldi r v => simp [Instr.op, readOperands, readTwo, readOperand, h 1 r rfl, h 2 v rfl]
  | add a b => simp [Instr.op, readOperands, readTwo, readOperand, h 1 a rfl, h 2 b rfl]
  | mul a b => simp [Instr.op, readOperands, readTwo, readOperand, h 1 a rfl, h 2 b rfl]

theorem readOne_ok {ε : Type} {read : Nat → Except ε Byte} {b : Byte} {mk : Byte → Instr} {i : Instr}
    (h : readOne read b mk = .ok i) : ∃ b1, read 1 = .ok b1 ∧ i = mk b1 := by
  unfold readOne readOperand at h
  cases h1 : read 1 with
  | error e => simp [h1] at h
  | ok b1 => simp [h1] at h; exact ⟨b1, rfl, h.symm⟩

theorem readTwo_ok {ε : Type} {read : Nat → Except ε Byte} {b : Byte} {mk : Byte → Byte → Instr} {i : Instr}
    (h : readTwo read b mk = .ok i) : ∃ b1 b2, read 1 = .ok b1 ∧ read 2 = .ok b2 ∧ i = mk b1 b2 := by
  unfold readTwo readOperand at h
  cases h1 : read 1 with
  | error e => simp [h1] at h
  | ok b1 =>
    cases h2 : read 2 with
    | error e => simp [h1, h2] at h
    | ok b2 => simp [h1, h2] at h; exact ⟨b1, b2, rfl, rfl, h.symm⟩

/-- What the decoder answers is the instruction whose encoding the reader gives, and it is enabled. -/
theorem bytes_of_decodeAt {ε : Type} {cfg : Config} {read : Nat → Except ε Byte} {i : Instr}
    (h : decodeAt cfg read = .ok i) :
    i.enabled cfg = true ∧ ∀ k b, (encode i)[k]? = some b → read k = .ok b := by
  unfold decodeAt at h
  cases h0 : read 0 with
  | error e => simp [h0] at h
  | ok b0 =>
    cases hl : lookupOpcode cfg b0 with
    | none => simp [h0, hl] at h
    | some op =>
      simp only [h0, hl] at h
      have hb := code_of_lookupOpcode hl
      subst hb
      have one : ∀ b1 : Byte, read 1 = .ok b1 → ∀ k b, ([op.code, b1] : List Byte)[k]? = some b → read k = .ok b := by
        intro b1 h1 k b hk
        match k with
        | 0 => simp at hk; rw [h0, hk]
        | 1 => simp at hk; rw [h1, hk]
        | k + 2 => simp at hk
      have two : ∀ b1 b2 : Byte, read 1 = .ok b1 → read 2 = .ok b2 →
          ∀ k b, ([op.code, b1, b2] : List Byte)[k]? = some b → read k = .ok b := by
        intro b1 b2 h1 h2 k b hk
        match k with
        | 0 => simp at hk; rw [h0, hk]
        | 1 => simp at hk; rw [h1, hk]
        | 2 => simp at hk; rw [h2, hk]
        | k + 3 => simp at hk
      cases op with
      | hlt =>
        simp [readOperands] at h
        subst h
        refine ⟨rfl, fun k b hk => ?_⟩
        match k with
        | 0 => simp [encode] at hk; rw [h0, ← hk]; rfl
        | k + 1 => simp [encode] at hk
      | push => obtain ⟨b1, h1, rfl⟩ := readOne_ok h; exact ⟨rfl, one b1 h1⟩
      | pop => obtain ⟨b1, h1, rfl⟩ := readOne_ok h; exact ⟨rfl, one b1 h1⟩
      | prn => obtain ⟨b1, h1, rfl⟩ := readOne_ok h; exact ⟨rfl, one b1 h1⟩
      | ldi => obtain ⟨b1, b2, h1, h2, rfl⟩ := readTwo_ok h; exact ⟨rfl, two b1 b2 h1 h2⟩
      | mul => obtain ⟨b1, b2, h1, h2, rfl⟩ := readTwo_ok h; exact ⟨rfl, two b1 b2 h1 h2⟩
      | add =>
        obtain ⟨b1, b2, h1, h2, rfl⟩ := readTwo_ok h
        refine ⟨?_, two b1 b2 h1 h2⟩
        have := lookupOpcode_code cfg .add
        rw [hl] at this
        cases hc : cfg.addOpcode with
        | true => exact hc
        | false => simp [hc] at this

end Sys2Proof
end

