-- ==== Sys2Proof/Laws/State.lean ====
section
/-! SUPPORT. One lemma per field per update of State, so that no proof unfolds a record update. -/

namespace Sys2Proof.Machine

@[simp] theorem writeReg_cfg (i : Fin 8) (v : Byte) (s : State) : (writeReg i v s).cfg = s.cfg := rfl
@[simp] theorem writeReg_pc (i : Fin 8) (v : Byte) (s : State) : (writeReg i v s).pc = s.pc := rfl
@[simp] theorem writeReg_mem (i : Fin 8) (v : Byte) (s : State) : (writeReg i v s).mem = s.mem := rfl
@[simp] theorem writeReg_status (i : Fin 8) (v : Byte) (s : State) : (writeReg i v s).status = s.status := rfl
@[simp] theorem writeReg_fault (i : Fin 8) (v : Byte) (s : State) : (writeReg i v s).fault = s.fault := rfl
@[simp] theorem writeReg_out (i : Fin 8) (v : Byte) (s : State) : (writeReg i v s).out = s.out := rfl

@[simp] theorem emit_cfg (v : Byte) (s : State) : (emit v s).cfg = s.cfg := rfl
@[simp] theorem emit_x (v : Byte) (s : State) : (emit v s).x = s.x := rfl
@[simp] theorem emit_pc (v : Byte) (s : State) : (emit v s).pc = s.pc := rfl
@[simp] theorem emit_mem (v : Byte) (s : State) : (emit v s).mem = s.mem := rfl
@[simp] theorem emit_status (v : Byte) (s : State) : (emit v s).status = s.status := rfl
@[simp] theorem emit_fault (v : Byte) (s : State) : (emit v s).fault = s.fault := rfl
@[simp] theorem emit_out (v : Byte) (s : State) : (emit v s).out = s.out ++ [v] := rfl

@[simp] theorem halt_cfg (s : State) : (halt s).cfg = s.cfg := rfl
@[simp] theorem halt_x (s : State) : (halt s).x = s.x := rfl
@[simp] theorem halt_pc (s : State) : (halt s).pc = s.pc := rfl
@[simp] theorem halt_mem (s : State) : (halt s).mem = s.mem := rfl
@[simp] theorem halt_status (s : State) : (halt s).status = .halted := rfl
@[simp] theorem halt_fault (s : State) : (halt s).fault = s.fault := rfl
@[simp] theorem halt_out (s : State) : (halt s).out = s.out := rfl

@[simp] theorem advance_cfg (n : Nat) (s : State) : (advance n s).cfg = s.cfg := rfl
@[simp] theorem advance_x (n : Nat) (s : State) : (advance n s).x = s.x := rfl
@[simp] theorem advance_pc (n : Nat) (s : State) : (advance n s).pc = s.pc + 1 + n := rfl
@[simp] theorem advance_mem (n : Nat) (s : State) : (advance n s).mem = s.mem := rfl
@[simp] theorem advance_status (n : Nat) (s : State) : (advance n s).status = s.status := rfl
@[simp] theorem advance_fault (n : Nat) (s : State) : (advance n s).fault = s.fault := rfl
@[simp] theorem advance_out (n : Nat) (s : State) : (advance n s).out = s.out := rfl

@[simp] theorem raiseFault_cfg (o : Option Byte) (d : Detail) (s : State) : (raiseFault o d s).cfg = s.cfg := rfl
@[simp] theorem raiseFault_x (o : Option Byte) (d : Detail) (s : State) : (raiseFault o d s).x = s.x := rfl
@[simp] theorem raiseFault_pc (o : Option Byte) (d : Detail) (s : State) : (raiseFault o d s).pc = s.pc := rfl
@[simp] theorem raiseFault_mem (o : Option Byte) (d : Detail) (s : State) : (raiseFault o d s).mem = s.mem := rfl
@[simp] theorem raiseFault_status (o : Option Byte) (d : Detail) (s : State) : (raiseFault o d s).status = .fault := rfl
@[simp] theorem raiseFault_out (o : Option Byte) (d : Detail) (s : State) : (raiseFault o d s).out = s.out := rfl
@[simp] theorem raiseFault_fault (o : Option Byte) (d : Detail) (s : State) :
    (raiseFault o d s).fault = some { code := d.code, pc := s.pc, opcode := o, detail := d } := rfl

@[simp] theorem setMem_cfg (s : State) (m : Memory) : ({ s with mem := m } : State).cfg = s.cfg := rfl
@[simp] theorem setMem_x (s : State) (m : Memory) : ({ s with mem := m } : State).x = s.x := rfl
@[simp] theorem setMem_pc (s : State) (m : Memory) : ({ s with mem := m } : State).pc = s.pc := rfl
@[simp] theorem setMem_status (s : State) (m : Memory) : ({ s with mem := m } : State).status = s.status := rfl
@[simp] theorem setMem_fault (s : State) (m : Memory) : ({ s with mem := m } : State).fault = s.fault := rfl
@[simp] theorem setMem_out (s : State) (m : Memory) : ({ s with mem := m } : State).out = s.out := rfl

/-! The fields that are read through an accessor. -/

theorem readReg_of_x {s t : State} (h : t.x = s.x) (i : Fin 8) : readReg t i = readReg s i := by
  simp [readReg, h]

theorem memRead_of_mem {s t : State} (h : t.mem = s.mem) (a : Nat) : memRead t a = memRead s a := by
  simp [memRead, h]

@[simp] theorem readReg_emit (v : Byte) (s : State) (i : Fin 8) : readReg (emit v s) i = readReg s i := rfl
@[simp] theorem readReg_halt (s : State) (i : Fin 8) : readReg (halt s) i = readReg s i := rfl
@[simp] theorem readReg_advance (n : Nat) (s : State) (i : Fin 8) : readReg (advance n s) i = readReg s i := rfl
@[simp] theorem readReg_setMem (s : State) (m : Memory) (i : Fin 8) :
    readReg { s with mem := m } i = readReg s i := rfl

@[simp] theorem memRead_writeReg (i : Fin 8) (v : Byte) (s : State) (a : Nat) :
    memRead (writeReg i v s) a = memRead s a := rfl
@[simp] theorem memRead_emit (v : Byte) (s : State) (a : Nat) : memRead (emit v s) a = memRead s a := rfl
@[simp] theorem memRead_halt (s : State) (a : Nat) : memRead (halt s) a = memRead s a := rfl
@[simp] theorem memRead_advance (n : Nat) (s : State) (a : Nat) : memRead (advance n s) a = memRead s a := rfl

/-! A read of a register after a write. -/

@[simp] theorem readReg_writeReg_same (i : Fin 8) (v : Byte) (s : State) : readReg (writeReg i v s) i = v := by
  simp [readReg, writeReg]

theorem readReg_writeReg_other {i j : Fin 8} (h : j ≠ i) (v : Byte) (s : State) :
    readReg (writeReg i v s) j = readReg s j := by
  have h' : i.val ≠ j.val := fun e => h (Fin.ext e.symm)
  simp [readReg, writeReg, Vector.getElem_set_ne, h']

theorem readReg_writeReg (i j : Fin 8) (v : Byte) (s : State) :
    readReg (writeReg i v s) j = if j = i then v else readReg s j := by
  split
  · next h => simp [h]
  · next h => exact readReg_writeReg_other h v s

end Sys2Proof.Machine
end

