-- ==== Sys2Proof/Laws/Memory.lean ====
section
/-! SUPPORT. The laws of memory: a read after a write, and that a write keeps the canonical form; equal
memories are equal data. -/

namespace Sys2Proof.Machine

/-- Below the lower bound of a canonical tail nothing is listed. -/
theorem Memory.read_below {lo : Nat} {m : Memory} (h : m.wfFrom lo = true) {a : Nat} (ha : a < lo) :
    m.read a = Memory.unlisted := by
  cases m with
  | nil => rfl
  | cons c m =>
    obtain ⟨b, w⟩ := c
    simp only [Memory.wfFrom, Bool.and_eq_true, decide_eq_true_eq] at h
    rw [Memory.read, if_neg (by omega), if_pos (by omega)]

theorem Memory.wfFrom_mono {lo lo' : Nat} {m : Memory} (h : m.wfFrom lo = true) (hl : lo' ≤ lo) :
    m.wfFrom lo' = true := by
  cases m with
  | nil => rfl
  | cons c m =>
    obtain ⟨b, w⟩ := c
    simp only [Memory.wfFrom, Bool.and_eq_true, decide_eq_true_eq] at h ⊢
    exact ⟨⟨⟨by omega, h.1.1.2⟩, h.1.2⟩, h.2⟩

theorem Memory.wfFrom_cell {lo a : Nat} {v : Byte} {m : Memory} (hl : lo ≤ a) (ha : a ≤ 255)
    (h : m.wfFrom (a + 1) = true) : (Memory.cell a v m).wfFrom lo = true := by
  unfold Memory.cell
  split
  · exact Memory.wfFrom_mono h (by omega)
  · next hv => simp [Memory.wfFrom, hl, ha, hv, h]

/-- A read of a cell put in front of a canonical tail above it. -/
theorem Memory.read_cell {a : Nat} {v : Byte} {m : Memory} (h : m.wfFrom (a + 1) = true) (b : Nat) :
    (Memory.cell a v m).read b = if b = a then v else if b < a then Memory.unlisted else m.read b := by
  unfold Memory.cell
  split
  · next hv =>
    split
    · next hb => rw [Memory.read_below h (by omega), hv]
    · split
      · exact Memory.read_below h (by omega)
      · rfl
  · rfl

/-- A write at an address inside memory keeps the canonical form. -/
theorem Memory.wfFrom_write {lo : Nat} {m : Memory} (h : m.wfFrom lo = true) {a : Nat} (hl : lo ≤ a)
    (ha : a ≤ 255) (v : Byte) : (m.write a v).wfFrom lo = true := by
  induction m generalizing lo with
  | nil => exact Memory.wfFrom_cell hl ha rfl
  | cons c m ih =>
    obtain ⟨b, w⟩ := c
    have h' := h
    simp only [Memory.wfFrom, Bool.and_eq_true, decide_eq_true_eq] at h'
    obtain ⟨⟨⟨hlb, hb⟩, hw⟩, hm⟩ := h'
    unfold Memory.write
    split
    · refine Memory.wfFrom_cell hl ha ?_
      simp only [Memory.wfFrom, Bool.and_eq_true, decide_eq_true_eq]
      exact ⟨⟨⟨by omega, hb⟩, hw⟩, hm⟩
    · split
      · next hab => subst hab; exact Memory.wfFrom_cell hl ha hm
      · simp only [Memory.wfFrom, Bool.and_eq_true, decide_eq_true_eq]
        exact ⟨⟨⟨hlb, hb⟩, hw⟩, ih hm (by omega)⟩

/-- Every memory operation keeps the canonical form: `write` is the only one. -/
theorem Memory.wf_write {m : Memory} (h : m.wf = true) {a : Nat} (ha : a ≤ 255) (v : Byte) :
    (m.write a v).wf = true :=
  Memory.wfFrom_write h (Nat.zero_le a) ha v

/-- The reset memory is canonical. -/
theorem Memory.wf_reset (cfg : Config) : (State.resetWith cfg).mem.wf = true := rfl

theorem Memory.read_writeFrom {lo : Nat} {m : Memory} (h : m.wfFrom lo = true) (a : Nat) (v : Byte) (b : Nat) :
    (m.write a v).read b = if b = a then v else m.read b := by
  induction m generalizing lo with
  | nil =>
    rw [Memory.write, Memory.read_cell (by rfl)]
    simp [Memory.read]
  | cons c m ih =>
    obtain ⟨b', w⟩ := c
    have h' := h
    simp only [Memory.wfFrom, Bool.and_eq_true, decide_eq_true_eq] at h'
    obtain ⟨⟨⟨-, hb⟩, hw⟩, hm⟩ := h'
    unfold Memory.write
    split
    · next hab =>
      rw [Memory.read_cell (by simp only [Memory.wfFrom, Bool.and_eq_true, decide_eq_true_eq]; exact ⟨⟨⟨by omega, hb⟩, hw⟩, hm⟩)]
      by_cases hba : b = a
      · simp [hba]
      · by_cases hlt : b < a
        · simp [hba, hlt, Memory.read, show b ≠ b' by omega, show b < b' by omega]
        · simp [hba, hlt]
    · split
      · next _ hab =>
        subst hab
        rw [Memory.read_cell hm]
        by_cases hba : b = a <;> simp [hba, Memory.read]
      · next hlt hne =>
        by_cases hbb : b = b'
        · simp [Memory.read, hbb, show b' ≠ a by omega]
        · by_cases hbl : b < b'
          · simp [Memory.read, hbb, hbl, show b ≠ a by omega]
          · simp [Memory.read, hbb, hbl, ih hm]

/-- A read after a write, in a canonical memory: the value written at its address, and every other
address as before. -/
theorem Memory.read_write {m : Memory} (h : m.wf = true) (a : Nat) (v : Byte) (b : Nat) :
    (m.write a v).read b = if b = a then v else m.read b :=
  Memory.read_writeFrom h a v b

theorem Memory.read_write_same {m : Memory} (h : m.wf = true) (a : Nat) (v : Byte) : (m.write a v).read a = v := by
  simp [Memory.read_write h]

theorem Memory.read_write_other {m : Memory} (h : m.wf = true) {a b : Nat} (hb : b ≠ a) (v : Byte) :
    (m.write a v).read b = m.read b := by
  simp [Memory.read_write h, hb]

/-- Two canonical memories that read alike are equal data. -/
theorem Memory.eq_of_read {lo : Nat} {m n : Memory} (hm : m.wfFrom lo = true) (hn : n.wfFrom lo = true)
    (h : ∀ a, m.read a = n.read a) : m = n := by
  induction m generalizing lo n with
  | nil =>
    cases n with
    | nil => rfl
    | cons c n =>
      obtain ⟨b, w⟩ := c
      simp only [Memory.wfFrom, Bool.and_eq_true, decide_eq_true_eq] at hn
      have := h b
      simp only [Memory.read, if_true] at this
      exact absurd this.symm hn.1.2
  | cons c m ih =>
    obtain ⟨a, v⟩ := c
    have hm' := hm
    simp only [Memory.wfFrom, Bool.and_eq_true, decide_eq_true_eq] at hm'
    cases n with
    | nil =>
      have := h a
      simp only [Memory.read, if_true] at this
      exact absurd this hm'.1.2
    | cons c n =>
      obtain ⟨b, w⟩ := c
      have hn' := hn
      simp only [Memory.wfFrom, Bool.and_eq_true, decide_eq_true_eq] at hn'
      have hab : a = b := by
        rcases Nat.lt_trichotomy a b with hlt | heq | hgt
        · have := h a
          simp [Memory.read, show a ≠ b by omega, hlt] at this
          exact absurd this hm'.1.2
        · exact heq
        · have := h b
          simp [Memory.read, show b ≠ a by omega, hgt] at this
          exact absurd this.symm hn'.1.2
      subst hab
      have hv : v = w := by simpa [Memory.read] using h a
      subst hv
      rw [ih hm'.2 hn'.2 fun k => ?_]
      by_cases hk : k < a + 1
      · rw [Memory.read_below hm'.2 hk, Memory.read_below hn'.2 hk]
      · have := h k
        simpa [Memory.read, show k ≠ a by omega, show ¬ k < a by omega] using this

/-- A read in range answers the byte; `memRead` fails only above 255 (20_memory.md R41). -/
theorem memRead_ok {s : State} {a : Nat} (h : a ≤ 255) : memRead s a = .ok (s.mem.read a) := by
  rw [memRead, if_neg (by omega)]

theorem memRead_error {s : State} {a : Nat} (h : 255 < a) : memRead s a = .error (.address a) := by
  rw [memRead, if_pos h]

/-- Everything `memRead` can answer. -/
theorem memRead_cases (s : State) (a : Nat) :
    (a ≤ 255 ∧ memRead s a = .ok (s.mem.read a)) ∨ (255 < a ∧ memRead s a = .error (.address a)) := by
  by_cases h : 255 < a
  · exact .inr ⟨h, memRead_error h⟩
  · exact .inl ⟨by omega, memRead_ok (by omega)⟩

theorem memWrite_ok {s : State} {a : Nat} (h : a ≤ 255) (v : Byte) :
    memWrite a v s = .ok { s with mem := s.mem.write a v } := by
  rw [memWrite, if_neg (by omega)]

theorem memWrite_error {s : State} {a : Nat} (h : 255 < a) (v : Byte) :
    memWrite a v s = .error (.address a) := by
  rw [memWrite, if_pos h]

/-- `MemRead` after `MemWrite` in a canonical memory. -/
theorem memRead_setMem_write {s : State} (h : s.mem.wf = true) {a : Nat} (v : Byte) (ha : a ≤ 255) (b : Nat) :
    memRead { s with mem := s.mem.write a v } b = if b = a then .ok v else memRead s b := by
  by_cases hb : 255 < b
  · rw [memRead_error hb, if_neg (by omega), memRead_error hb]
  · rw [memRead_ok (by omega), Memory.read_write h]
    split
    · rfl
    · rw [memRead_ok (by omega)]

theorem byte_le_255 (v : Byte) : v.toNat ≤ 255 := by have := v.isLt; omega

end Sys2Proof.Machine
end

