-- ==== Sys2Proof/Laws/Ops.lean ====
section
/-! SUPPORT. One spec lemma per shared operation over operands and per meaning: what it answers where
its register operands exist, and the fault it takes where one does not. -/

namespace Sys2Proof.Machine

theorem wrap8_toNat (n : Nat) : (wrap8 n).toNat = n % 256 := by
  simp [wrap8]

theorem decByte_toNat (v : Byte) : (decByte v).toNat = (v.toNat + 255) % 256 := wrap8_toNat _

theorem incByte_toNat (v : Byte) : (incByte v).toNat = (v.toNat + 1) % 256 := wrap8_toNat _

/-- Decrementing and incrementing SP undo each other (44_stack.md R123). -/
theorem incByte_decByte (v : Byte) : incByte (decByte v) = v := by
  apply BitVec.eq_of_toNat_eq
  have := v.isLt
  rw [incByte_toNat, decByte_toNat]
  omega

theorem checkReg_ok {r : Byte} (h : r.toNat < 8) : checkReg r = .ok ⟨r.toNat, h⟩ := dif_pos h

theorem checkReg_error {r : Byte} (h : 8 ≤ r.toNat) : checkReg r = .error (.register r) :=
  dif_neg (by omega)

theorem withReg_ok {o r : Byte} {s : State} {k : Fin 8 → Outcome} (h : r.toNat < 8) :
    withReg o r s k = k ⟨r.toNat, h⟩ := by
  rw [withReg, checkReg_ok h]

theorem withReg_error {o r : Byte} {s : State} {k : Fin 8 → Outcome} (h : 8 ≤ r.toNat) :
    withReg o r s k = .next (raiseFault (some o) (.register r) s) := by
  rw [withReg, checkReg_error h]

/-- Everything `withReg` can answer. -/
theorem withReg_cases (o r : Byte) (s : State) (k : Fin 8 → Outcome) :
    (∃ h : r.toNat < 8, withReg o r s k = k ⟨r.toNat, h⟩) ∨
      (8 ≤ r.toNat ∧ withReg o r s k = .next (raiseFault (some o) (.register r) s)) := by
  by_cases h : r.toNat < 8
  · exact .inl ⟨h, withReg_ok h⟩
  · exact .inr ⟨by omega, withReg_error (by omega)⟩

theorem alu_add (a b : Byte) : alu .add a b = .ok (wrap8 (a.toNat + b.toNat)) := rfl
theorem alu_mul (a b : Byte) : alu .mul a b = .ok (wrap8 (a.toNat * b.toNat)) := rfl
theorem alu_other (a b : Byte) : alu .other a b = .error (.selector .other) := rfl

/-- The state PUSH leaves: SP decremented, then `x[r]` (read after it) at the new SP, then the advance. -/
def pushed (r : Fin 8) (s : State) : State :=
  let s1 := writeReg spIndex (decByte (readReg s spIndex)) s
  advance 1 { s1 with mem := s.mem.write (decByte (readReg s spIndex)).toNat (readReg s1 r) }

/-- The state POP leaves: the byte at SP in `x[r]`, then SP (read after it) incremented, then the
advance. -/
def popped (r : Fin 8) (s : State) : State :=
  let s1 := writeReg r (s.mem.read (readReg s spIndex).toNat) s
  advance 1 (writeReg spIndex (incByte (readReg s1 spIndex)) s1)

theorem execHlt_eq (s : State) : exec .hlt s = .next (advance 0 (halt s)) := rfl

theorem execLdi_eq {r v : Byte} {s : State} (h : r.toNat < 8) :
    exec (.ldi r v) s = .next (advance 2 (writeReg ⟨r.toNat, h⟩ v s)) :=
  withReg_ok h

theorem execPrn_eq {r : Byte} {s : State} (h : r.toNat < 8) :
    exec (.prn r) s = .next (advance 1 (emit (readReg s ⟨r.toNat, h⟩) s)) :=
  withReg_ok h

theorem execMul_eq {a b : Byte} {s : State} (ha : a.toNat < 8) (hb : b.toNat < 8) :
    exec (.mul a b) s = .next (advance 2 (writeReg ⟨a.toNat, ha⟩
      (wrap8 ((readReg s ⟨a.toNat, ha⟩).toNat * (readReg s ⟨b.toNat, hb⟩).toNat)) s)) :=
  (withReg_ok ha).trans (withReg_ok hb)

theorem execAdd_eq {a b : Byte} {s : State} (ha : a.toNat < 8) (hb : b.toNat < 8) :
    exec (.add a b) s = .next (advance 2 (writeReg ⟨a.toNat, ha⟩
      (wrap8 ((readReg s ⟨a.toNat, ha⟩).toNat + (readReg s ⟨b.toNat, hb⟩).toNat)) s)) :=
  (withReg_ok ha).trans (withReg_ok hb)

theorem execPush_eq {r : Byte} {s : State} (h : r.toNat < 8) :
    exec (.push r) s = .next (pushed ⟨r.toNat, h⟩ s) := by
  refine (withReg_ok h).trans ?_
  simp only [readReg_writeReg_same]
  rw [memWrite_ok (byte_le_255 _)]
  rfl

theorem execPop_eq {r : Byte} {s : State} (h : r.toNat < 8) :
    exec (.pop r) s = .next (popped ⟨r.toNat, h⟩ s) := by
  refine (withReg_ok h).trans ?_
  rw [memRead_ok (byte_le_255 _)]
  rfl

/-! Each field of what PUSH and POP leave. -/

@[simp] theorem pushed_cfg (r : Fin 8) (s : State) : (pushed r s).cfg = s.cfg := rfl
@[simp] theorem pushed_pc (r : Fin 8) (s : State) : (pushed r s).pc = s.pc + 1 + 1 := rfl
@[simp] theorem pushed_status (r : Fin 8) (s : State) : (pushed r s).status = s.status := rfl
@[simp] theorem pushed_fault (r : Fin 8) (s : State) : (pushed r s).fault = s.fault := rfl
@[simp] theorem pushed_out (r : Fin 8) (s : State) : (pushed r s).out = s.out := rfl
theorem pushed_mem (r : Fin 8) (s : State) :
    (pushed r s).mem = s.mem.write (decByte (readReg s spIndex)).toNat
      (if r = spIndex then decByte (readReg s spIndex) else readReg s r) := by
  simp [pushed, readReg_writeReg]
theorem readReg_pushed (r j : Fin 8) (s : State) :
    readReg (pushed r s) j = if j = spIndex then decByte (readReg s spIndex) else readReg s j := by
  rw [← readReg_writeReg]; rfl

@[simp] theorem popped_cfg (r : Fin 8) (s : State) : (popped r s).cfg = s.cfg := rfl
@[simp] theorem popped_pc (r : Fin 8) (s : State) : (popped r s).pc = s.pc + 1 + 1 := rfl
@[simp] theorem popped_mem (r : Fin 8) (s : State) : (popped r s).mem = s.mem := rfl
@[simp] theorem popped_status (r : Fin 8) (s : State) : (popped r s).status = s.status := rfl
@[simp] theorem popped_fault (r : Fin 8) (s : State) : (popped r s).fault = s.fault := rfl
@[simp] theorem popped_out (r : Fin 8) (s : State) : (popped r s).out = s.out := rfl
theorem readReg_popped (r j : Fin 8) (s : State) :
    readReg (popped r s) j =
      if j = spIndex then
        incByte (if r = spIndex then s.mem.read (readReg s spIndex).toNat else readReg s spIndex)
      else if j = r then s.mem.read (readReg s spIndex).toNat else readReg s j := by
  simp only [popped, readReg_advance, readReg_writeReg]
  congr 2
  by_cases h : r = spIndex
  · simp [h]
  · simp [h, show ¬ spIndex = r from fun e => h e.symm]

end Sys2Proof.Machine
end

