-- ==== Sys2Proof/Laws/PerInstr.lean ====
section
/-! SUPPORT. A statement for every instruction as syntax, one lemma per constructor: the shape of its
encoding (spec/30_encoding.md R60, R61, R72). -/

namespace Sys2Proof.Laws.EncodingShape

/-- The encoding is 1 + n bytes, begins with the opcode byte of its row, and its register operands are
among the bytes that follow, in order. -/
def Statement (i : Instr) : Prop :=
  (encode i).length = 1 + i.operands ∧ (encode i).head? = some i.op.code ∧
    i.registerFields <+: (encode i).tail

theorem hlt : Statement .hlt := ⟨rfl, rfl, by simp [Instr.registerFields, encode]⟩
theorem push (reg : Byte) : Statement (.push reg) := ⟨rfl, rfl, by simp [Instr.registerFields, encode]⟩
theorem pop (reg : Byte) : Statement (.pop reg) := ⟨rfl, rfl, by simp [Instr.registerFields, encode]⟩
theorem prn (reg : Byte) : Statement (.prn reg) := ⟨rfl, rfl, by simp [Instr.registerFields, encode]⟩
theorem ldi (reg imm : Byte) : Statement (.ldi reg imm) := ⟨rfl, rfl, by simp [Instr.registerFields, encode]⟩
theorem add (regA regB : Byte) : Statement (.add regA regB) := ⟨rfl, rfl, by simp [Instr.registerFields, encode]⟩
theorem mul (regA regB : Byte) : Statement (.mul regA regB) := ⟨rfl, rfl, by simp [Instr.registerFields, encode]⟩

end Sys2Proof.Laws.EncodingShape
end

