-- ==== Sys2Proof/Laws/Step.lean ====
section
/-! SUPPORT. What one step can do, said once: `exec_cases` for the execute phase, `step_running` and
`step_stopped` for the step around it. -/

namespace Sys2Proof.Machine

/-- Placing an instruction word keeps the canonical form. -/
theorem wf_withFetchWord {s : State} (h : s.mem.wf = true) (nbits w : Nat) :
    (s.withFetchWord nbits w).mem.wf = true := by
  have put : ∀ (l : List (Nat × Byte)) (m : Memory), m.wf = true →
      (l.foldl (fun m kb => if s.pc + kb.1 ≤ 255 then m.write (s.pc + kb.1) kb.2 else m) m).wf = true := by
    intro l
    induction l with
    | nil => exact fun m hm => hm
    | cons kb l ih =>
      intro m hm
      refine ih _ ?_
      dsimp only
      split
      · next hle => exact Memory.wf_write hm hle _
      · exact hm
  exact put _ _ h

theorem step_stopped {s : State} (h : s.status ≠ .running) : step s = .next s := by
  unfold step
  cases hs : s.status <;> simp_all

theorem step_error {s : State} (h : s.status = .running) {e : DecodeError Detail} (hf : fetchInstr s = .error e) :
    step s = .next (raiseDecode e s) := by
  simp [step, h, hf]

theorem step_ok {s : State} (h : s.status = .running) {i : Instr} (hf : fetchInstr s = .ok i) :
    step s = exec i s := by
  simp [step, h, hf]

/-- An instruction is fetched exactly where memory holds its bytes and the machine has it. -/
theorem fetchInstr_ok_iff {s : State} {i : Instr} :
    fetchInstr s = .ok i ↔
      i.enabled s.cfg = true ∧ ∀ k b, (encode i)[k]? = some b → memRead s (s.pc + k) = .ok b :=
  ⟨fun h => bytes_of_decodeAt h, fun h => decodeAt_of_bytes h.1 h.2⟩

theorem registersOk_two {a b : Byte} : (([a, b] : List Byte).all regByteOk = true) ↔ a.toNat < 8 ∧ b.toNat < 8 := by
  simp [regByteOk]

theorem registersOk_one {r : Byte} : (([r] : List Byte).all regByteOk = true) ↔ r.toNat < 8 := by
  simp [regByteOk]

/-- The operand bytes of a row, all inside memory or one of them past its end: the first that is past
the end is reported, and its address is 256. -/
theorem readOperands_cases {s : State} (op : Op) (h : s.pc ≤ 255) :
    (s.pc + op.format.operands ≤ 255 ∧ ∃ i, readOperands (fetchByte s) op.code op = .ok i) ∨
      (255 < s.pc + op.format.operands ∧
        readOperands (fetchByte s) op.code op = .error (.noByte (some op.code) (.address 256))) := by
  rcases memRead_cases s (s.pc + 1) with ⟨h1, e1⟩ | ⟨h1, e1⟩
  · rcases memRead_cases s (s.pc + 2) with ⟨h2, e2⟩ | ⟨h2, e2⟩
    · left
      cases op <;> simp [Op.format, Format.operands, readOperands, readOne, readTwo, readOperand, fetchByte, e1, e2] <;> omega
    · have h254 : s.pc + 2 = 256 := by omega
      rw [h254] at e2
      cases op <;> simp [Op.format, Format.operands, readOperands, readOne, readTwo, readOperand, fetchByte, e1, h254, e2] <;> omega
  · have h255 : s.pc + 1 = 256 := by omega
    rw [h255] at e1
    cases op <;> simp [Op.format, Format.operands, readOperands, readOne, readTwo, readOperand, fetchByte, h255, e1] <;> omega

/-- Everything the phases before execute can answer. -/
theorem fetchInstr_cases (s : State) :
    (∃ i, fetchInstr s = .ok i ∧ i.enabled s.cfg = true ∧ memRead s s.pc = .ok i.op.code ∧
      ∀ k b, (encode i)[k]? = some b → memRead s (s.pc + k) = .ok b) ∨
    (255 < s.pc ∧ fetchInstr s = .error (.noByte none (.address s.pc))) ∨
    (∃ b, memRead s s.pc = .ok b ∧ lookupOpcode s.cfg b = none ∧ fetchInstr s = .error (.unknownInstruction b)) ∨
    (∃ op : Op, s.pc ≤ 255 ∧ memRead s s.pc = .ok op.code ∧ lookupOpcode s.cfg op.code = some op ∧
      255 < s.pc + op.format.operands ∧ fetchInstr s = .error (.noByte (some op.code) (.address 256))) := by
  rcases memRead_cases s s.pc with ⟨hp, hm⟩ | ⟨hp, hm⟩
  · cases hl : lookupOpcode s.cfg (s.mem.read s.pc) with
    | none => exact .inr (.inr (.inl ⟨_, hm, hl, by simp [fetchInstr, decodeAt, fetchByte, hm, hl]⟩))
    | some op =>
      have hc := code_of_lookupOpcode hl
      rw [hc] at hm hl
      have hf : fetchInstr s = readOperands (fetchByte s) op.code op := by
        simp [fetchInstr, decodeAt, fetchByte, hm, hl]
      rcases readOperands_cases op hp with ⟨-, i, hi⟩ | ⟨hn, he⟩
      · have hok := hf.trans hi
        obtain ⟨h1, h2⟩ := fetchInstr_ok_iff.1 hok
        exact .inl ⟨i, hok, h1, h2 0 _ (encode_head i), h2⟩
      · exact .inr (.inr (.inr ⟨op, hp, hm, hl, hn, hf.trans he⟩))
  · exact .inr (.inl ⟨hp, by simp [fetchInstr, decodeAt, fetchByte, hm]⟩)

/-- Everything the execute phase can do: the fault of the register check, or the instruction's effect. -/
theorem exec_cases (i : Instr) (s : State) :
    (∃ r ∈ i.registerFields, 8 ≤ r.toNat ∧ exec i s = .next (raiseFault (some i.op.code) (.register r) s)) ∨
    (i = .hlt ∧ exec i s = .next (advance 0 (halt s))) ∨
    (∃ r, ∃ h : r.toNat < 8, i = .push r ∧ exec i s = .next (pushed ⟨r.toNat, h⟩ s)) ∨
    (∃ r, ∃ h : r.toNat < 8, i = .pop r ∧ exec i s = .next (popped ⟨r.toNat, h⟩ s)) ∨
    (∃ r, ∃ h : r.toNat < 8, i = .prn r ∧ exec i s = .next (advance 1 (emit (readReg s ⟨r.toNat, h⟩) s))) ∨
    (∃ r v, ∃ d : Fin 8, d.val = r.toNat ∧ i = .ldi r v ∧ exec i s = .next (advance 2 (writeReg d v s))) ∨
    (∃ a b v, ∃ d : Fin 8, d.val = a.toNat ∧ (i = .add a b ∨ i = .mul a b) ∧
      exec i s = .next (advance 2 (writeReg d v s))) := by
  cases i with
  | hlt => exact .inr (.inl ⟨rfl, rfl⟩)
  | push r =>
    by_cases h : r.toNat < 8
    · exact .inr (.inr (.inl ⟨r, h, rfl, execPush_eq h⟩))
    · exact .inl ⟨r, by simp [Instr.registerFields], by omega, withReg_error (by omega)⟩
  | pop r =>
    by_cases h : r.toNat < 8
    · exact .inr (.inr (.inr (.inl ⟨r, h, rfl, execPop_eq h⟩)))
    · exact .inl ⟨r, by simp [Instr.registerFields], by omega, withReg_error (by omega)⟩
  | prn r =>
    by_cases h : r.toNat < 8
    · exact .inr (.inr (.inr (.inr (.inl ⟨r, h, rfl, execPrn_eq h⟩))))
    · exact .inl ⟨r, by simp [Instr.registerFields], by omega, withReg_error (by omega)⟩
  | ldi r v =>
    by_cases h : r.toNat < 8
    · exact .inr (.inr (.inr (.inr (.inr (.inl ⟨r, v, ⟨r.toNat, h⟩, rfl, rfl, execLdi_eq h⟩)))))
    · exact .inl ⟨r, by simp [Instr.registerFields], by omega, withReg_error (by omega)⟩
  | add a b =>
    by_cases ha : a.toNat < 8
    · by_cases hb : b.toNat < 8
      · exact .inr (.inr (.inr (.inr (.inr (.inr ⟨a, b, _, ⟨a.toNat, ha⟩, rfl, .inl rfl, execAdd_eq ha hb⟩)))))
      · exact .inl ⟨b, by simp [Instr.registerFields], by omega, (withReg_ok ha).trans (withReg_error (by omega))⟩
    · exact .inl ⟨a, by simp [Instr.registerFields], by omega, withReg_error (by omega)⟩
  | mul a b =>
    by_cases ha : a.toNat < 8
    · by_cases hb : b.toNat < 8
      · exact .inr (.inr (.inr (.inr (.inr (.inr ⟨a, b, _, ⟨a.toNat, ha⟩, rfl, .inr rfl, execMul_eq ha hb⟩)))))
      · exact .inl ⟨b, by simp [Instr.registerFields], by omega, (withReg_ok ha).trans (withReg_error (by omega))⟩
    · exact .inl ⟨a, by simp [Instr.registerFields], by omega, withReg_error (by omega)⟩

/-- What a meaning leaves alone where it completes, said once for all instructions. -/
theorem exec_frame {i : Instr} {s t : State} (hr : i.registersOk = true) (h : exec i s = .next t) :
    t.cfg = s.cfg ∧ t.fault = s.fault ∧ t.status = (if i = .hlt then .halted else s.status) := by
  have hno : ∀ r ∈ i.registerFields, ¬ 8 ≤ r.toNat := by
    intro r hm
    have := List.all_eq_true.1 hr r hm
    simp only [regByteOk, decide_eq_true_eq] at this
    omega
  rcases exec_cases i s with ⟨r, hm, h8, -⟩ | ⟨rfl, e⟩ | ⟨r, _, rfl, e⟩ | ⟨r, _, rfl, e⟩ | ⟨r, _, rfl, e⟩ |
    ⟨r, v, d, _, rfl, e⟩ | ⟨a, b, v, d, _, hi, e⟩
  · exact absurd h8 (hno r hm)
  · obtain rfl := Host.Outcome.next.inj (e.symm.trans h); simp
  · obtain rfl := Host.Outcome.next.inj (e.symm.trans h); simp
  · obtain rfl := Host.Outcome.next.inj (e.symm.trans h); simp
  · obtain rfl := Host.Outcome.next.inj (e.symm.trans h); simp
  · obtain rfl := Host.Outcome.next.inj (e.symm.trans h); simp
  · obtain rfl := Host.Outcome.next.inj (e.symm.trans h)
    rcases hi with rfl | rfl <;> simp

end Sys2Proof.Machine
end

