-- ==== Sys2Proof/Machine/Flags.lean ====
section
/-! DEFINITION. Flags: none. "The CORE has no flags or condition codes and no control or status
registers that a program can address" (spec/10_state.md R31); a carry out, the high byte of a product
and an overflow are discarded and stored nowhere (43_alu.md R111, R112, R116). So this file defines
nothing. -/
end

