-- ==== Sys2Proof/Tests/Slice0.lean ====
section
/-! SUPPORT. Small checks of the model against values taken from the spec (the vectors E1 to E8 and V1
to V57 of spec/95_test_vectors.md, the worked example of 30_encoding.md R72), the smoke test of
WellFormed, and a witness for the hypotheses of each statement of Certificates/Slice0. -/

namespace Sys2Proof.Tests

open Sys2Proof Sys2Proof.Machine

/-- The next state of an outcome, if it has one. -/
def next? : Outcome → Option State
  | .next t => some t
  | .fault _ => none
  | .refused _ => none

/-- Bytes placed in memory from address `a` on. -/
def place (a : Nat) : List Byte → State → State
  | [], s => s
  | b :: bs, s => place (a + 1) bs { s with mem := s.mem.write a b }

/-- The reset state with `pc` = `a` and `bs` placed there. -/
def codeAt (a : Nat) (bs : List Byte) : State := place a bs { State.reset with pc := a }

/-- The machine with `P_ADD_OPCODE`. -/
def withAdd (s : State) : State := { s with cfg := Config.withAdd }

/-- `f` of the state after one step. -/
def after {α : Type} (s : State) (f : State → α) : Option α := (next? (step s)).map f

/-- The program-visible registers of a state. -/
def regs (s : State) : List Byte := s.x.toList

/-! ### WellFormed: an ill-formed term for each check -/

theorem test_wf_refuses_bad_reg_of_push : WellFormed Config.default (.push 8) = false := by decide
theorem test_wf_refuses_bad_reg_of_pop : WellFormed Config.default (.pop 255) = false := by decide
theorem test_wf_refuses_bad_reg_of_prn : WellFormed Config.default (.prn 8) = false := by decide
theorem test_wf_refuses_bad_reg_of_ldi : WellFormed Config.default (.ldi 9 0) = false := by decide
theorem test_wf_refuses_bad_first_reg : WellFormed Config.withAdd (.mul 8 0) = false := by decide
theorem test_wf_refuses_bad_second_reg : WellFormed Config.withAdd (.add 0 8) = false := by decide
theorem test_wf_refuses_add_where_absent : WellFormed Config.default (.add 0 1) = false := by decide
theorem test_wf_accepts :
    WellFormed Config.default (.ldi 7 255) = true ∧ WellFormed Config.withAdd (.add 7 0) = true ∧
      WellFormed Config.default .hlt = true := by decide

/-! ### Decoding: words written out from R61 and R63; the image of R72 -/

theorem test_decode_hlt : decode Config.default [0b00000001] = .ok (.hlt, []) := by decide
theorem test_decode_push : decode Config.default [0b01000101, 0b00000110] = .ok (.push 6, []) := by decide
theorem test_decode_pop : decode Config.default [0b01000110, 0b00000001] = .ok (.pop 1, []) := by decide
theorem test_decode_prn : decode Config.default [0b01000111, 0b00000011] = .ok (.prn 3, []) := by decide
theorem test_decode_ldi :
    decode Config.default [0b10000010, 0b00000011, 0b11001000] = .ok (.ldi 3 200, []) := by decide
theorem test_decode_mul :
    decode Config.default [0b10100010, 0b00000100, 0b00000101] = .ok (.mul 4 5, []) := by decide
theorem test_decode_add :
    decode Config.withAdd [0b10100000, 0b00000010, 0b00000011] = .ok (.add 2 3, []) := by decide

/-- V5, V7, V8: bytes that are no instruction, one of them with the LS-8 layout. -/
theorem test_decode_unknown :
    [0xA0, 0xC2, 0x02, 0x80, 0xA1, 0x48, 0x44, 0x00, 0xFF].all
      (fun b : Byte => decide (decode Config.default [b, 0, 0] = .error (.unknownInstruction b))) = true := by
  decide

/-- Operand bytes that are not there, by number. -/
theorem test_decode_missing_operand :
    decode Config.default [0x82, 3] = .error (.noByte (some 0x82) 2) ∧
      decode Config.default [] = .error (.noByte none 0) := by decide

/-- R72: `82 00 08 82 01 09 A2 00 01 47 00 01`. -/
theorem test_assemble_scenario :
    assemble [.ldi 0 8, .ldi 1 9, .mul 0 1, .prn 0, .hlt] =
      [0x82, 0x00, 0x08, 0x82, 0x01, 0x09, 0xA2, 0x00, 0x01, 0x47, 0x00, 0x01] := by decide

/-- The opcode map has each byte once ("each opcode maps to exactly one operation"). -/
theorem test_opcodes_distinct : ((opcodeMap Config.withAdd).map (·.1)).Pairwise (· ≠ ·) := by decide

/-- The host's two questions, on every row of spec/opcode_table.json. -/
theorem test_table_words_decode :
    [decodeTableWord 8 0x01, decodeTableWord 16 0x0245, decodeTableWord 16 0x0346, decodeTableWord 16 0x0447,
      decodeTableWord 24 0x090182, decodeTableWord 24 0x0302A0, decodeTableWord 24 0x0504A2, decodeTableWord 8 0xA2] =
    [some .hlt, some (.push 2), some (.pop 3), some (.prn 4), some (.ldi 1 9), some (.add 2 3), some (.mul 4 5),
      some (.mul 0 0)] := by decide

theorem test_fetch_word_add_runs :
    after (State.reset.withFetchWord 24 0x0302A0) (fun t => (t.status, t.pc)) = some (.running, 3) := by decide

theorem test_fetch_word_ldi_runs :
    after (State.reset.withFetchWord 24 0x090182) (fun t => (readReg t 1, t.pc)) = some (9, 3) := by decide

/-! ### The instructions -/

/-- E1. -/
theorem test_ldi : after (codeAt 0 [0x82, 3, 0xC8]) (fun t => (regs t, t.pc)) =
    some ([0, 0, 0, 200, 0, 0, 0, 0xF4], 3) := by decide
/-- V18. -/
theorem test_ldi_bad_register : after (codeAt 0 [0x82, 8, 5]) (fun t => (t.status, t.fault, regs t)) =
    some (.fault, some ⟨.outOfBounds, 0, some 0x82, .register 8⟩, [0, 0, 0, 0, 0, 0, 0, 0xF4]) := by decide
/-- V22. -/
theorem test_prn_sp : after (codeAt 0 [0x47, 7]) (fun t => (t.out, t.pc)) = some ([244], 2) := by decide
/-- V23. -/
theorem test_prn_bad_register : after (codeAt 0 [0x47, 8]) (fun t => (t.status, t.out)) = some (.fault, []) := by
  decide
/-- V12: HLT at address 255. -/
theorem test_hlt_at_the_end : after (codeAt 255 [0x01]) (fun t => (t.status, t.pc)) = some (.halted, 256) := by
  decide
/-- V30. -/
theorem test_mul_wraps :
    after (writeReg 4 200 (writeReg 5 3 (codeAt 0 [0xA2, 4, 5]))) (fun t => (readReg t 4, readReg t 5, t.pc)) =
      some (88, 3, 3) := by decide
/-- V35: reg_a is checked first. -/
theorem test_mul_checks_first_register : after (codeAt 0 [0xA2, 9, 8]) (fun t => t.fault) =
    some (some ⟨.outOfBounds, 0, some 0xA2, .register 9⟩) := by decide
/-- V38. -/
theorem test_add_wraps :
    after (withAdd (writeReg 2 250 (writeReg 3 10 (codeAt 0 [0xA0, 2, 3])))) (fun t => (readReg t 2, readReg t 3)) =
      some (4, 10) := by decide
/-- V43. -/
theorem test_add_absent : after (codeAt 0 [0xA0, 2, 3]) (fun t => (t.fault, t.pc)) =
    some (some ⟨.unknownInstruction, 0, some 0xA0, .opcode 0xA0⟩, 0) := by decide
/-- V45: PUSH R7 stores the decremented SP. -/
theorem test_push_sp : after (codeAt 0 [0x45, 7]) (fun t => (readReg t 7, t.mem.read 0xF3)) =
    some (0xF3, 0xF3) := by decide
/-- V46: SP wraps from 0 to 255. -/
theorem test_push_wraps :
    after (writeReg 7 0 (writeReg 1 99 (codeAt 0 [0x45, 1]))) (fun t => (readReg t 7, t.mem.read 0xFF)) =
      some (0xFF, 99) := by decide
/-- V50: POP R7. -/
theorem test_pop_sp :
    after (place 0xF3 [16] (writeReg 7 0xF3 (codeAt 0 [0x46, 7]))) (fun t => readReg t 7) = some 17 := by decide
/-- V51: SP wraps from 255 to 0; the cell keeps its value. -/
theorem test_pop_wraps :
    after (place 0xFF [5] (writeReg 7 0xFF (codeAt 0 [0x46, 3])))
      (fun t => (readReg t 3, readReg t 7, t.mem.read 0xFF)) = some (5, 0, 5) := by decide

/-! ### Fetch and fault order -/

/-- V9. -/
theorem test_fetch_at_256 : after (codeAt 256 []) (fun t => (t.fault, t.pc)) =
    some (some ⟨.outOfBounds, 256, none, .address 256⟩, 256) := by decide
/-- V15, V55: the operand fetch comes before the register check. -/
theorem test_fetch_precedes_register_check : after (codeAt 254 [0xA2, 9]) (fun t => t.fault) =
    some (some ⟨.outOfBounds, 254, some 0xA2, .address 256⟩) := by decide
/-- V54. -/
theorem test_zero_memory_faults : after (codeAt 3 []) (fun t => (t.status, t.fault)) =
    some (.fault, some ⟨.unknownInstruction, 3, some 0, .opcode 0⟩) := by decide
/-- V48: a PUSH that overwrites its own operand byte. -/
theorem test_push_over_itself :
    after (place 8 [0x47] (writeReg 7 8 (writeReg 0 1 (codeAt 6 [0x45, 0]))))
      (fun t => (readReg t 7, t.mem.read 7, t.pc)) = some (7, 1, 8) := by decide
/-- V57. -/
theorem test_alu_other_selector : alu .other 1 2 = .error (.selector .other) := by decide

/-! ### The host side -/

/-- R153: `10000010 # LDI` yields byte 0x82; a blank line and a line that is no literal are skipped. -/
theorem test_image_lines :
    parseImage ["10000010 # LDI".toList, "".toList, "# only a comment".toList, "  00000001".toList, "12".toList] =
      .ok [0x82, 0x01] := by decide

/-- R153: a literal above 255 is refused. -/
theorem test_image_literal_too_large : parseLine "100000000".toList = .error .usageError := by decide

/-- R153, steps 3 and 4, on the lines of log entry 13: nine digits, a prefix, an embedded space. -/
theorem test_image_lines_to_the_letter :
    parseImage ["000000001".toList, "0b1".toList, "1 0".toList] = .ok [0x01] := by decide

/-- R70: the assembly forms. -/
theorem test_asm_text : asmText (.ldi 0 8) = "LDI R0,8" ∧ asmText (.mul 0 1) = "MUL R0,R1" ∧
    asmText .hlt = "HLT" ∧ asmText (.push 7) = "PUSH R7" := by decide

/-! ### Witnesses: the hypotheses of each statement with hypotheses, met together -/

theorem witness_DecodeOfEncode : (Instr.add 7 255).enabled Config.withAdd = true := by decide

theorem witness_EncodeOfDecode : decode Config.default [0x82, 255, 255, 1] = .ok (.ldi 255 255, [1]) := by decide

theorem witness_InstructionLengths : (Instr.mul 7 0).registersOk = true ∧ Instr.hlt.registersOk = true := by decide

/-- A clause over the bytes of an instruction, from the bytes. -/
theorem holds_of_bytes {s : State} {a : Nat} {i : Instr}
    (h : ∀ k : Fin (encode i).length, memRead s (a + k) = .ok ((encode i)[k])) : HoldsInstr s a i := by
  intro k b hk
  obtain ⟨hlt, rfl⟩ := List.getElem?_eq_some_iff.1 hk
  exact h ⟨k, hlt⟩

theorem witness_StepRunsTheDecodedInstruction :
    (codeAt 253 [0x82, 7, 9]).status = .running ∧
      (∀ k b, ([0x82, 7, 9] : List Byte)[k]? = some b → memRead (codeAt 253 [0x82, 7, 9]) (253 + k) = .ok b) ∧
      decode (codeAt 253 [0x82, 7, 9]).cfg [0x82, 7, 9] = .ok (.ldi 7 9, []) :=
  ⟨rfl, holds_of_bytes (i := .ldi 7 9) (by decide), by decide⟩

theorem witness_StepRunsTheEncodedInstruction :
    (withAdd (codeAt 253 [0xA0, 7, 8])).status = .running ∧
      (Instr.add 7 8).enabled (withAdd (codeAt 253 [0xA0, 7, 8])).cfg = true ∧
      HoldsInstr (withAdd (codeAt 253 [0xA0, 7, 8])) 253 (.add 7 8) :=
  ⟨rfl, rfl, holds_of_bytes (by decide)⟩

theorem witness_StoppedMachine :
    ({ State.reset with status := .halted } : State).status ≠ .running ∧
      applyInput .reset { State.reset with status := .halted } = .next State.reset ∧
      State.reset ≠ { State.reset with status := .halted } := ⟨by decide, rfl, by decide⟩

theorem witness_OpcodeFetchPastMemory : (codeAt 256 []).status = .running ∧ 255 < (codeAt 256 []).pc := by decide

theorem witness_UnknownOpcode :
    (codeAt 255 [0xA0]).status = .running ∧ memRead (codeAt 255 [0xA0]) 255 = .ok 0xA0 ∧
      (0xA0 : Byte) ∉ ([0x01, 0x45, 0x46, 0x47, 0x82, 0xA2] : List Byte) ∧
      (codeAt 255 [0xA0]).cfg.addOpcode = false := by decide

theorem witness_OperandFetchPastMemory :
    (codeAt 254 [0x82]).status = .running ∧ memRead (codeAt 254 [0x82]) 254 = .ok Op.ldi.code ∧
      255 < 254 + Op.ldi.format.operands ∧
      memRead (codeAt 255 [0x47]) 255 = .ok Op.prn.code ∧ 255 < 255 + Op.prn.format.operands := by decide

theorem witness_FirstBadRegisterByte :
    (Instr.mul 7 8).registerFields.find? (fun b => decide (8 ≤ b.toNat)) = some 8 ∧
      (codeAt 0 [0xA2, 7, 8]).status = .running ∧ (Instr.mul 7 8).enabled (codeAt 0 [0xA2, 7, 8]).cfg = true ∧
      HoldsInstr (codeAt 0 [0xA2, 7, 8]) 0 (.mul 7 8) ∧ (7 : Byte).toNat < 8 :=
  ⟨by decide, rfl, rfl, holds_of_bytes (by decide), by decide⟩

/-- A faulting step from RUNNING: FaultsArePrecise, StatusChangesOnlyAsRuled and
PcAdvancesByTheInstructionLength, fault clauses. -/
theorem witness_faulting_step :
    State.reset.status = .running ∧ ∃ t, step State.reset = .next t ∧ t.status = .fault :=
  ⟨rfl, _, rfl, rfl⟩

/-- A completing step, and a halting one, from RUNNING: the other clauses of the same statements. -/
theorem witness_completing_steps :
    (∃ t, step (codeAt 0 [0x82, 0, 1]) = .next t ∧ t.status = .running ∧ t.fault = none) ∧
      ∃ t, step (codeAt 255 [0x01]) = .next t ∧ t.status = .halted :=
  ⟨⟨_, rfl, rfl, rfl⟩, _, rfl, rfl⟩

/-- The second clause of StatusChangesOnlyAsRuled. -/
theorem witness_reset_leaves_fault :
    ({ State.reset with status := .fault } : State).status ≠ .running ∧
      applyInput .reset { State.reset with status := .fault } = .next State.reset ∧
      State.reset.status ≠ .fault := ⟨by decide, rfl, by decide⟩

/-- A register byte at the boundary, for the fault clauses of the instruction statements. -/
theorem witness_bad_register_byte : 8 ≤ (8 : Byte).toNat ∧ (7 : Byte).toNat < 8 := by decide

/-- The step clauses of LoadImmediateWritesItsRegister and MultiplyWritesTheProduct: the last address that
holds the whole instruction, and the first that does not. -/
theorem witness_ldi_mul_step :
    (codeAt 253 [0x82, 7, 9]).status = .running ∧ memRead (codeAt 253 [0x82, 7, 9]) 253 = .ok 0x82 ∧
      memRead (codeAt 253 [0x82, 7, 9]) 254 = .ok 7 ∧ memRead (codeAt 253 [0x82, 7, 9]) 255 = .ok 9 ∧
      memRead (codeAt 254 [0x82, 7]) 254 = .ok 0x82 ∧ 255 < 254 + 2 ∧
      memRead (codeAt 253 [0xA2, 7, 7]) 253 = .ok 0xA2 ∧ memRead (codeAt 253 [0xA2, 7, 7]) 254 = .ok 7 ∧
      memRead (codeAt 253 [0xA2, 7, 7]) 255 = .ok 7 ∧ memRead (codeAt 254 [0xA2, 7]) 254 = .ok 0xA2 := by
  decide

/-- The step clauses of AddWritesTheSum, on both machines. -/
theorem witness_add_step :
    memRead (codeAt 254 [0xA0, 7]) 254 = .ok 0xA0 ∧ (codeAt 254 [0xA0, 7]).cfg.addOpcode = false ∧
      (withAdd (codeAt 254 [0xA0, 7])).cfg.addOpcode = true ∧ 255 < 254 + 2 ∧
      memRead (withAdd (codeAt 253 [0xA0, 7, 8])) 253 = .ok 0xA0 ∧
      memRead (withAdd (codeAt 253 [0xA0, 7, 8])) 254 = .ok 7 ∧
      memRead (withAdd (codeAt 253 [0xA0, 7, 8])) 255 = .ok 8 := by decide

/-- The step clauses of PrintEmitsItsRegister, PushStoresAtTheDecrementedSp and
PopReadsAtSpAndIncrements, and the canonical memory that PUSH asks for. -/
theorem witness_prn_push_pop_step :
    (codeAt 254 [0x47, 7]).mem.wf = true ∧ memRead (codeAt 254 [0x47, 7]) 254 = .ok 0x47 ∧
      memRead (codeAt 254 [0x47, 7]) 255 = .ok 7 ∧ memRead (codeAt 255 [0x47]) 255 = .ok 0x47 ∧ 255 < 255 + 1 ∧
      (codeAt 254 [0x45, 7]).mem.wf = true ∧ memRead (codeAt 254 [0x45, 7]) 254 = .ok 0x45 ∧
      memRead (codeAt 254 [0x45, 7]) 255 = .ok 7 ∧ memRead (codeAt 255 [0x45]) 255 = .ok 0x45 ∧
      memRead (codeAt 254 [0x46, 7]) 254 = .ok 0x46 ∧ memRead (codeAt 254 [0x46, 7]) 255 = .ok 7 ∧
      memRead (codeAt 255 [0x46]) 255 = .ok 0x46 := by decide

theorem witness_HaltStopsTheRun :
    (codeAt 255 [0x01]).status = .running ∧ memRead (codeAt 255 [0x01]) 255 = .ok 0x01 := by decide

/-- The exchange of R0 and R1. -/
def swap01 (r : Fin 8) : Fin 8 := if r = 0 then 1 else if r = 1 then 0 else r

theorem witness_RegistersAreAlike :
    Function.Injective swap01 ∧ swap01 7 = 7 ∧ (Instr.mul 0 1).registersOk = true ∧
      Renamed swap01 (writeReg 0 5 State.reset) (writeReg 1 5 State.reset) :=
  ⟨by decide, rfl, rfl, by decide, rfl, rfl, rfl, rfl, rfl, rfl⟩

/-- A step that leaves a fault record: the second clause of UnsupportedSelectorStopsAndIsNeverDriven. -/
theorem witness_UnsupportedSelector :
    State.reset.status = .running ∧ State.reset.fault = none ∧
      step State.reset = .next (faulted .unknownInstruction (some 0) (.opcode 0) State.reset) :=
  ⟨rfl, rfl, rfl⟩

theorem witness_MemWrite :
    (codeAt 0 [1, 2]).mem.wf = true ∧ (255 : Nat) ≤ 255 ∧ (255 : Nat) < 256 := by decide

/-- OnlyPushWritesMemory, its two cases: a PRN, and a PUSH that changes the byte below SP. -/
theorem witness_OnlyPushWritesMemory :
    (codeAt 0 [0x47, 7]).mem.wf = true ∧ (∃ t, step (codeAt 0 [0x47, 7]) = .next t) ∧
      (codeAt 0 [0x45, 7]).mem.wf = true ∧
      after (codeAt 0 [0x45, 7]) (fun t => decide (memRead t 0xF3 = memRead (codeAt 0 [0x45, 7]) 0xF3)) =
        some false :=
  ⟨by decide, ⟨_, rfl⟩, by decide, by decide⟩

/-- PushedByteIsFetchedNext: SP three above `pc` with HLT pushed over the next instruction, with a byte
that is no opcode, and SP two above `pc`, which overwrites the operand. -/
theorem witness_PushedByteIsFetchedNext :
    let s := writeReg 7 9 (writeReg 0 1 (codeAt 6 [0x45, 0, 0x47, 0]))
    let u := writeReg 7 9 (writeReg 0 2 (codeAt 6 [0x45, 0, 0x47, 0]))
    let w := writeReg 7 8 (codeAt 6 [0x45, 7])
    (s.mem.wf = true ∧ s.status = .running ∧ HoldsInstr s s.pc (.push (regByte 0)) ∧
      (decByte (readReg s 7)).toNat = s.pc + 2 ∧ readReg s 0 = 0x01) ∧
    (u.mem.wf = true ∧ u.status = .running ∧ HoldsInstr u u.pc (.push (regByte 0)) ∧
      (decByte (readReg u 7)).toNat = u.pc + 2 ∧ lookupOpcode u.cfg (readReg u 0) = none) ∧
    (w.mem.wf = true ∧ w.status = .running ∧ HoldsInstr w w.pc (.push (regByte 7)) ∧
      (decByte (readReg w 7)).toNat = w.pc + 1) :=
  ⟨⟨by decide, rfl, holds_of_bytes (by decide), by decide, by decide⟩,
    ⟨by decide, rfl, holds_of_bytes (by decide), by decide, by decide⟩,
    ⟨by decide, rfl, holds_of_bytes (by decide), by decide⟩⟩

/-- OutputGrowsOnlyByPrint, its printing case, and StepDoesNotReadTheOutput. -/
theorem witness_printing_step :
    ∃ t, step (codeAt 0 [0x47, 7]) = .next t ∧ t.out = [0xF4] := ⟨_, rfl, by decide⟩

theorem witness_NoInputChangesTheParameters :
    applyInput (.load 255 7) State.reset = .next { State.reset with mem := [(255, 7)] } ∧
      applyInput .reset State.reset = .next State.reset := ⟨rfl, rfl⟩

theorem witness_StatusOutputs :
    ({ State.reset with status := .fault } : State).status = .fault ∧ State.reset.status ≠ .fault := by decide

/-- StepKeepsTheInvariant and InputsAndImagesKeepTheInvariant: a state with `pc` at the end of memory
that meets the invariant, its faulting step, and a launch with a full image. -/
theorem witness_StepKeepsTheInvariant :
    (codeAt 256 []).Inv ∧
      step (codeAt 256 []) = .next (faulted .outOfBounds none (.address 256) (codeAt 256 [])) :=
  ⟨⟨by decide, by decide, by decide⟩, rfl⟩

theorem witness_launch :
    launch Config.default [0x82, 0, 8] =
      .next { State.reset with mem := [(0, 0x82), (2, 8)] } := rfl

theorem witness_EveryRunEnds : (codeAt 256 []).pc ≤ 256 ∧ 257 - (codeAt 256 []).pc ≤ 1 := by decide

theorem witness_image_lengths :
    (List.replicate 256 (1 : Byte)).length ≤ 256 ∧ 256 < (List.replicate 257 (1 : Byte)).length := by
  constructor <;> rw [List.length_replicate]
  omega

theorem witness_LoadPort :
    State.reset.mem.wf = true ∧ State.reset.status = .running ∧ State.reset.pc = 0 ∧
      ∃ t, step (codeAt 0 [0x82, 0, 1]) = .next t := ⟨rfl, rfl, rfl, _, rfl⟩

/-- PushThenPopRoundTrips: a program in memory at the end of it, and SP above its bytes. -/
theorem witness_PushThenPop :
    let s := codeAt 252 [0x45, 7, 0x46, 7]
    s.mem.wf = true ∧ s.status = .running ∧ HoldsInstr s s.pc (.push (regByte 7)) ∧
      HoldsInstr s (s.pc + 2) (.pop (regByte 7)) ∧ pushAddr (readReg s 7) 0 ≠ s.pc + 2 ∧
      pushAddr (readReg s 7) 0 ≠ s.pc + 3 :=
  ⟨by decide, rfl, holds_of_bytes (by decide), holds_of_bytes (by decide), by decide, by decide⟩

/-- NestedPushesPopInReverse: two pushes and two pops, the last pop of each register and both pushed
cells. -/
theorem witness_NestedPushes :
    let ps : List (Fin 8) := [0, 1]
    let qs : List (Fin 8) := [2, 3]
    State.reset.mem.wf = true ∧ ps.length = qs.length ∧ 7 ∉ ps ∧ 7 ∉ qs ∧ qs[1]? = some 3 ∧
      ps[ps.length - 1 - 1]? = some 0 ∧ (∀ j', 1 < j' → qs[j']? ≠ some 3) ∧ ps.length ≤ 0 + 256 ∧
      (0 : Fin 8) ∉ qs := by
  refine ⟨rfl, rfl, by decide, by decide, rfl, rfl, fun j' h => ?_, by decide, by decide⟩
  rw [List.getElem?_eq_none (show 2 ≤ j' by omega)]
  simp

/-- NestedPushesPopInReverse beyond 256 pushes: of 257, the pop number 255 (the last whose value no push
overwrote) is the last one into R2 and delivers push number 1, the first whose cell is not overwritten;
R4 is popped into by none, and push number 256 is the last. -/
theorem witness_NestedPushes_at_the_limit :
    let ps : List (Fin 8) := 1 :: List.replicate 256 0
    let qs : List (Fin 8) := List.replicate 256 2 ++ [3]
    ps.length = 257 ∧ ps.length = qs.length ∧ 7 ∉ ps ∧ 7 ∉ qs ∧ 255 < 256 ∧ qs[255]? = some 2 ∧
      ps[ps.length - 1 - 255]? = some 0 ∧ (∀ j', 255 < j' → qs[j']? ≠ some 2) ∧ ps[1]? = some 0 ∧
      ps.length ≤ 1 + 256 ∧ ¬ ps.length ≤ 0 + 256 ∧ ps[256]? = some 0 ∧ 4 ∉ qs := by
  intro ps qs
  have hlen : ps.length = 257 ∧ qs.length = 257 := by decide +kernel
  have hlast : qs[256]? = some 3 := by decide +kernel
  refine ⟨hlen.1, hlen.1.trans hlen.2.symm, by decide +kernel, by decide +kernel, by decide,
    by decide +kernel, by decide +kernel, fun j' h => ?_, rfl, by omega, by omega, by decide +kernel,
    by decide +kernel⟩
  rcases Nat.lt_or_ge j' 257 with h' | h'
  · obtain rfl : j' = 256 := by omega
    rw [hlast]
    decide
  · rw [List.getElem?_eq_none (by omega)]
    exact nofun

end Sys2Proof.Tests
end

/-! # Instructions with existing registers, with each register operand as a register number -/

namespace Sys2Proof.Machine

theorem regByte_toNat (r : Fin 8) : (regByte r).toNat = r.val := by
  simp only [regByte, BitVec.toNat_ofNat]
  omega

theorem regByte_lt (r : Fin 8) : (regByte r).toNat < 8 := regByte_toNat r ▸ r.isLt

/-- The register number that the byte of a register gives back. -/
theorem regByte_index (r : Fin 8) (h : (regByte r).toNat < 8) : (⟨(regByte r).toNat, h⟩ : Fin 8) = r :=
  Fin.ext (regByte_toNat r)

/-- A register byte below 8 is the byte of a register (30_encoding.md R64). -/
theorem exists_regByte {b : Byte} (h : b.toNat < 8) : ∃ r : Fin 8, b = regByte r :=
  ⟨⟨b.toNat, h⟩, BitVec.eq_of_toNat_eq (regByte_toNat ⟨b.toNat, h⟩).symm⟩

/-- Case analysis on an instruction whose register operands exist: they are the bytes of registers. -/
theorem registersOk_cases {motive : (i : Instr) → i.registersOk = true → Prop} (hlt : ∀ h, motive .hlt h)
    (push : ∀ r h, motive (.push (regByte r)) h) (pop : ∀ r h, motive (.pop (regByte r)) h)
    (prn : ∀ r h, motive (.prn (regByte r)) h) (ldi : ∀ r v h, motive (.ldi (regByte r) v) h)
    (add : ∀ a b h, motive (.add (regByte a) (regByte b)) h)
    (mul : ∀ a b h, motive (.mul (regByte a) (regByte b)) h)
    (i : Instr) (hr : i.registersOk = true) : motive i hr := by
  cases i with
  | hlt => exact hlt hr
  | push b => obtain ⟨r, rfl⟩ := exists_regByte (registersOk_one.1 hr); exact push r hr
  | pop b => obtain ⟨r, rfl⟩ := exists_regByte (registersOk_one.1 hr); exact pop r hr
  | prn b => obtain ⟨r, rfl⟩ := exists_regByte (registersOk_one.1 hr); exact prn r hr
  | ldi b v => obtain ⟨r, rfl⟩ := exists_regByte (registersOk_one.1 hr); exact ldi r v hr
  | add b c =>
    obtain ⟨hb, hc⟩ := registersOk_two.1 hr
    obtain ⟨r, rfl⟩ := exists_regByte hb
    obtain ⟨q, rfl⟩ := exists_regByte hc
    exact add r q hr
  | mul b c =>
    obtain ⟨hb, hc⟩ := registersOk_two.1 hr
    obtain ⟨r, rfl⟩ := exists_regByte hb
    obtain ⟨q, rfl⟩ := exists_regByte hc
    exact mul r q hr

/-! What each instruction does, over register numbers. -/

theorem exec_push_regByte (r : Fin 8) (s : State) : exec (.push (regByte r)) s = .next (pushed r s) := by
  rw [execPush_eq (regByte_lt r), regByte_index]

theorem exec_pop_regByte (r : Fin 8) (s : State) : exec (.pop (regByte r)) s = .next (popped r s) := by
  rw [execPop_eq (regByte_lt r), regByte_index]

theorem exec_prn_regByte (r : Fin 8) (s : State) :
    exec (.prn (regByte r)) s = .next (advance 1 (emit (readReg s r) s)) := by
  rw [execPrn_eq (regByte_lt r), regByte_index]

theorem exec_ldi_regByte (r : Fin 8) (v : Byte) (s : State) :
    exec (.ldi (regByte r) v) s = .next (advance 2 (writeReg r v s)) := by
  rw [execLdi_eq (regByte_lt r), regByte_index]

theorem exec_add_regByte (a b : Fin 8) (s : State) :
    exec (.add (regByte a) (regByte b)) s =
      .next (advance 2 (writeReg a (wrap8 ((readReg s a).toNat + (readReg s b).toNat)) s)) := by
  rw [execAdd_eq (regByte_lt a) (regByte_lt b), regByte_index, regByte_index]

theorem exec_mul_regByte (a b : Fin 8) (s : State) :
    exec (.mul (regByte a) (regByte b)) s =
      .next (advance 2 (writeReg a (wrap8 ((readReg s a).toNat * (readReg s b).toNat)) s)) := by
  rw [execMul_eq (regByte_lt a) (regByte_lt b), regByte_index, regByte_index]

/-- An instruction with existing registers completes with `pc` advanced by its length (40_cycle.md R86). -/
theorem exec_completes {i : Instr} (hr : i.registersOk = true) (s : State) :
    ∃ t, exec i s = .next t ∧ t.pc = s.pc + i.length := by
  induction i, hr using registersOk_cases with
  | hlt => exact ⟨_, execHlt_eq s, rfl⟩
  | push r => exact ⟨_, exec_push_regByte r s, rfl⟩
  | pop r => exact ⟨_, exec_pop_regByte r s, rfl⟩
  | prn r => exact ⟨_, exec_prn_regByte r s, rfl⟩
  | ldi r v => exact ⟨_, exec_ldi_regByte r v s, rfl⟩
  | add a b => exact ⟨_, exec_add_regByte a b s, rfl⟩
  | mul a b => exact ⟨_, exec_mul_regByte a b s, rfl⟩

end Sys2Proof.Machine

/-! # What a step from RUNNING can do, and the status it leaves -/

namespace Sys2Proof.Machine

/-- A failure of fetch, decode or operand fetch is a fault taken (40_cycle.md R81 to R83). -/
theorem raiseDecode_eq (e : DecodeError Detail) (s : State) : ∃ o d, raiseDecode e s = raiseFault o d s := by
  cases e with
  | noByte o d => exact ⟨o, d, rfl⟩
  | unknownInstruction b => exact ⟨some b, .opcode b, rfl⟩

/-- HLT is fetched wherever its byte is: it has no operand bytes. -/
theorem fetchInstr_hlt {s : State} (h : memRead s s.pc = .ok 0x01) : fetchInstr s = .ok .hlt := by
  refine fetchInstr_ok_iff.2 ⟨rfl, fun k b hk => ?_⟩
  match k with
  | 0 =>
    obtain rfl : Opcode.hlt = b := by simpa [encode] using hk
    exact h
  | k + 1 => simp [encode] at hk

/-- A running machine at a HLT byte halts and advances (41_basic.md R102). -/
theorem step_hlt {s : State} (hs : s.status = .running) (h : memRead s s.pc = .ok 0x01) :
    step s = .next (advance 0 (halt s)) :=
  (step_ok hs (fetchInstr_hlt h)).trans (execHlt_eq s)

/-- The register check of an ALU instruction stops at the first register byte of 8 or more (43_alu.md R114). -/
theorem aluInstr_registerFault {a b : Byte} (h : ¬(a.toNat < 8 ∧ b.toNat < 8)) (o : Byte) (op : AluOp)
    (s : State) : ∃ r, aluInstr o op a b s = .next (raiseFault (some o) (.register r) s) := by
  by_cases ha : a.toNat < 8
  · exact ⟨b, (withReg_ok ha).trans (withReg_error (Nat.le_of_not_lt fun hb => h ⟨ha, hb⟩))⟩
  · exact ⟨a, withReg_error (Nat.le_of_not_lt ha)⟩

/-- An instruction with a register byte of 8 or more takes the fault of the register check (40_cycle.md R84). -/
theorem exec_registerFault {i : Instr} (h : ¬i.registersOk = true) (s : State) :
    ∃ r, exec i s = .next (raiseFault (some i.op.code) (.register r) s) := by
  cases i with
  | hlt => exact absurd rfl h
  | push r => exact ⟨r, withReg_error (Nat.le_of_not_lt (mt registersOk_one.2 h))⟩
  | pop r => exact ⟨r, withReg_error (Nat.le_of_not_lt (mt registersOk_one.2 h))⟩
  | prn r => exact ⟨r, withReg_error (Nat.le_of_not_lt (mt registersOk_one.2 h))⟩
  | ldi r v => exact ⟨r, withReg_error (Nat.le_of_not_lt (mt registersOk_one.2 h))⟩
  | add a b => exact aluInstr_registerFault (mt registersOk_two.2 h) Opcode.add .add s
  | mul a b => exact aluInstr_registerFault (mt registersOk_two.2 h) Opcode.mul .mul s

/-- Everything a step from RUNNING can do: take a fault, or execute the instruction whose opcode byte
`pc` points at, all of whose registers exist. -/
theorem step_running_cases {s : State} (hs : s.status = .running) :
    (∃ o d, step s = .next (raiseFault o d s)) ∨
      ∃ i : Instr, memRead s s.pc = .ok i.op.code ∧ i.registersOk = true ∧ step s = exec i s := by
  cases hf : fetchInstr s with
  | error e =>
    obtain ⟨o, d, he⟩ := raiseDecode_eq e s
    exact .inl ⟨o, d, (step_error hs hf).trans (congrArg _ he)⟩
  | ok i =>
    have he := step_ok hs hf
    by_cases hr : i.registersOk = true
    · exact .inr ⟨i, (fetchInstr_ok_iff.1 hf).2 0 _ (encode_head i), hr, he⟩
    · obtain ⟨r, h⟩ := exec_registerFault hr s
      exact .inl ⟨_, _, he.trans h⟩

/-- A step from RUNNING that does not fault leaves the fault record alone, and halts or goes on running
by whether the byte at `pc` is HLT's; one that faults records `pc` (10_state.md R28, R29). -/
theorem step_running_status {s t : State} (hs : s.status = .running) (h : step s = .next t) :
    (t.status = .fault ∧ memRead s s.pc ≠ .ok 0x01 ∧ ∃ r, t.fault = some r ∧ r.pc = s.pc) ∨
    (t.status = .halted ∧ memRead s s.pc = .ok 0x01 ∧ t.fault = s.fault) ∨
    (t.status = .running ∧ memRead s s.pc ≠ .ok 0x01 ∧ t.fault = s.fault) := by
  by_cases hh : memRead s s.pc = .ok 0x01
  · obtain rfl := Host.Outcome.next.inj ((step_hlt hs hh).symm.trans h)
    exact .inr (.inl ⟨rfl, hh, rfl⟩)
  · rcases step_running_cases hs with ⟨o, d, e⟩ | ⟨i, hm, hr, e⟩
    · obtain rfl := Host.Outcome.next.inj (e.symm.trans h)
      exact .inl ⟨rfl, hh, _, rfl, rfl⟩
    · obtain ⟨-, hfault, hstatus⟩ := exec_frame hr (e.symm.trans h)
      have hi : i ≠ .hlt := by
        rintro rfl
        exact hh hm
      exact .inr (.inr ⟨by rw [hstatus, if_neg hi, hs], hh, hfault⟩)

/-- The load port is closed on a stopped machine (10_state.md R36). -/
theorem loadPort_stopped {s : State} (h : s.status ≠ .running) (addr data : Byte) :
    loadPort addr data s = .refused .loadPortTooLate := by
  simp [loadPort, beforeFirstStep, h]

/-- Settles O15: a step from RUNNING by its three outcomes, and the inputs of a stopped machine one by one. -/
theorem statusChangesOnlyAsRuled : Obligations.StatusChangesOnlyAsRuled := by
  refine ⟨fun s t hs h => ?_, fun inp s t hs h hne => ?_⟩
  · rcases step_running_status hs h with ⟨ht, hm, hr⟩ | ⟨ht, hm, hf⟩ | ⟨ht, hm, hf⟩
    · exact ⟨iff_of_false (by simp [ht]) hm, fun _ => hr, fun hn => absurd ht hn⟩
    · exact ⟨iff_of_true ht hm, by simp [ht], fun _ => hf⟩
    · exact ⟨iff_of_false (by simp [ht]) hm, by simp [ht], fun _ => hf⟩
  · cases inp with
    | reset =>
      obtain rfl := Host.Outcome.next.inj h
      exact ⟨rfl, rfl⟩
    | load addr data => exact absurd ((loadPort_stopped hs addr data).symm.trans h) nofun
    | step =>
      obtain rfl := Host.Outcome.next.inj ((step_stopped hs).symm.trans h)
      exact absurd rfl hne

/-- Settles O35, from the numbering and the two cases of the record output. -/
theorem statusOutputsAreNumbered : Obligations.StatusOutputsAreNumbered :=
  ⟨rfl, rfl, rfl, rfl, rfl, rfl, fun _ => ⟨rfl, fun h => if_pos h, fun h => if_neg h⟩⟩

end Sys2Proof.Machine

/-! # Renaming of registers (10_state.md R23) -/

namespace Sys2Proof.Machine

section
variable {σ : Fin 8 → Fin 8} {s s' : State}

theorem renameByte_regByte (σ : Fin 8 → Fin 8) (r : Fin 8) : renameByte σ (regByte r) = regByte (σ r) := by
  rw [renameByte, dif_pos (regByte_lt r), regByte_index]

/-! Every operation of a meaning, done to both states of a renamed pair, keeps it one. -/

theorem renamed_readReg (h : Renamed σ s s') (r : Fin 8) : readReg s' (σ r) = readReg s r := h.1 r

theorem renamed_readReg_sp (h : Renamed σ s s') (h7 : σ 7 = 7) : readReg s' spIndex = readReg s spIndex := by
  simpa [spIndex, h7] using renamed_readReg h 7

theorem renamed_writeReg (hσ : Function.Injective σ) (h : Renamed σ s s') (r : Fin 8) (v : Byte) :
    Renamed σ (writeReg r v s) (writeReg (σ r) v s') := by
  obtain ⟨hreg, hrest⟩ := h
  exact ⟨fun j => by simp only [readReg_writeReg, hσ.eq_iff, hreg], hrest⟩

theorem renamed_writeReg_sp (hσ : Function.Injective σ) (h7 : σ 7 = 7) (h : Renamed σ s s') (v : Byte) :
    Renamed σ (writeReg spIndex v s) (writeReg spIndex v s') := by
  simpa [spIndex, h7] using renamed_writeReg hσ h 7 v

theorem renamed_setMem_write (h : Renamed σ s s') (a : Nat) (v : Byte) :
    Renamed σ { s with mem := s.mem.write a v } { s' with mem := s'.mem.write a v } := by
  obtain ⟨hreg, hpc, hmem, hrest⟩ := h
  exact ⟨hreg, hpc, by rw [hmem], hrest⟩

theorem renamed_emit (h : Renamed σ s s') (v : Byte) : Renamed σ (emit v s) (emit v s') := by
  obtain ⟨hreg, hpc, hmem, hout, hcontrol⟩ := h
  exact ⟨hreg, hpc, hmem, by simp [hout], hcontrol⟩

theorem renamed_halt (h : Renamed σ s s') : Renamed σ (halt s) (halt s') := by
  obtain ⟨hreg, hpc, hmem, hout, -, hfault, hcfg⟩ := h
  exact ⟨hreg, hpc, hmem, hout, rfl, hfault, hcfg⟩

theorem renamed_advance (h : Renamed σ s s') (n : Nat) : Renamed σ (advance n s) (advance n s') := by
  obtain ⟨hreg, hpc, hrest⟩ := h
  exact ⟨hreg, by simp [hpc], hrest⟩

theorem renamed_pushed (hσ : Function.Injective σ) (h7 : σ 7 = 7) (h : Renamed σ s s') (r : Fin 8) :
    Renamed σ (pushed r s) (pushed (σ r) s') := by
  have h1 := renamed_writeReg_sp hσ h7 h (decByte (readReg s spIndex))
  have h2 := renamed_setMem_write h1 (decByte (readReg s spIndex)).toNat
    (readReg (writeReg spIndex (decByte (readReg s spIndex)) s) r)
  simp only [pushed]
  rw [renamed_readReg_sp h h7, renamed_readReg h1]
  exact renamed_advance h2 1

theorem renamed_popped (hσ : Function.Injective σ) (h7 : σ 7 = 7) (h : Renamed σ s s') (r : Fin 8) :
    Renamed σ (popped r s) (popped (σ r) s') := by
  have hmem : s'.mem = s.mem := h.2.2.1
  have h1 := renamed_writeReg hσ h r (s.mem.read (readReg s spIndex).toNat)
  simp only [popped]
  rw [renamed_readReg_sp h h7, hmem, renamed_readReg_sp h1 h7]
  exact renamed_advance (renamed_writeReg_sp hσ h7 h1 _) 1

/-- Executing the renamed instruction in the renamed state gives the renamed result. -/
theorem exec_renameInstr (hσ : Function.Injective σ) (h7 : σ 7 = 7) {i : Instr} (hr : i.registersOk = true)
    (h : Renamed σ s s') :
    ∃ t t', exec i s = .next t ∧ exec (renameInstr σ i) s' = .next t' ∧ Renamed σ t t' := by
  induction i, hr using registersOk_cases with
  | hlt => exact ⟨_, _, execHlt_eq s, execHlt_eq s', renamed_advance (renamed_halt h) 0⟩
  | push r =>
    rw [renameInstr, renameByte_regByte]
    exact ⟨_, _, exec_push_regByte r s, exec_push_regByte (σ r) s', renamed_pushed hσ h7 h r⟩
  | pop r =>
    rw [renameInstr, renameByte_regByte]
    exact ⟨_, _, exec_pop_regByte r s, exec_pop_regByte (σ r) s', renamed_popped hσ h7 h r⟩
  | prn r =>
    rw [renameInstr, renameByte_regByte, exec_prn_regByte (σ r), renamed_readReg h]
    exact ⟨_, _, exec_prn_regByte r s, rfl, renamed_advance (renamed_emit h _) 1⟩
  | ldi r v =>
    rw [renameInstr, renameByte_regByte]
    exact ⟨_, _, exec_ldi_regByte r v s, exec_ldi_regByte (σ r) v s',
      renamed_advance (renamed_writeReg hσ h r v) 2⟩
  | add a b =>
    rw [renameInstr, renameByte_regByte, renameByte_regByte, exec_add_regByte (σ a), renamed_readReg h,
      renamed_readReg h]
    exact ⟨_, _, exec_add_regByte a b s, rfl, renamed_advance (renamed_writeReg hσ h a _) 2⟩
  | mul a b =>
    rw [renameInstr, renameByte_regByte, renameByte_regByte, exec_mul_regByte (σ a), renamed_readReg h,
      renamed_readReg h]
    exact ⟨_, _, exec_mul_regByte a b s, rfl, renamed_advance (renamed_writeReg hσ h a _) 2⟩

end

/-- Settles O24: every operation keeps two states renamed, so every instruction does. -/
theorem registersZeroToSixAreAlike : Obligations.RegistersZeroToSixAreAlike := by
  intro σ hσ h7 i s s' hr h
  obtain ⟨t, t', ht, ht', hren⟩ := exec_renameInstr hσ h7 hr h
  obtain ⟨u, hu, hpc⟩ := exec_completes hr s
  obtain rfl := Host.Outcome.next.inj (ht.symm.trans hu)
  obtain ⟨-, hfault, -⟩ := exec_frame hr ht
  exact ⟨t, t', ht, ht', hren, hpc, hfault⟩

end Sys2Proof.Machine

/-! # Each opcode byte is one row of the map, or unknown (30_encoding.md R67, R68) -/

namespace Sys2Proof

theorem lookupOpcode_eq_some_iff {cfg : Config} {b : Byte} {op : Op} :
    lookupOpcode cfg b = some op ↔ b = op.code ∧ (op = .add → cfg.addOpcode = true) := by
  constructor
  · intro h
    obtain rfl := code_of_lookupOpcode h
    refine ⟨rfl, ?_⟩
    rintro rfl
    simpa [lookupOpcode_code] using h
  · rintro ⟨rfl, hadd⟩
    rw [lookupOpcode_code]
    split
    · next h => rw [if_pos (hadd h), h]
    · rfl

theorem lookupOpcode_eq_none_iff {cfg : Config} {b : Byte} :
    lookupOpcode cfg b = none ↔ ∀ op : Op, b = op.code → op = .add ∧ cfg.addOpcode = false := by
  simp only [Option.eq_none_iff_forall_ne_some, ne_eq, lookupOpcode_eq_some_iff, not_and, Classical.not_imp,
    Bool.not_eq_true]

section
variable {ε : Type} {read : Nat → Except ε Byte} {b c : Byte}

/-! Reading operands fails only for want of a byte. -/

theorem readOperand_ne_unknown {k : Nat} : readOperand read b k ≠ .error (.unknownInstruction c) := by
  unfold readOperand
  split <;> simp

theorem readOne_ne_unknown {mk : Byte → Instr} : readOne read b mk ≠ .error (.unknownInstruction c) := by
  unfold readOne
  split
  · next e h =>
    rintro ⟨⟩
    exact readOperand_ne_unknown h
  · simp

theorem readTwo_ne_unknown {mk : Byte → Byte → Instr} : readTwo read b mk ≠ .error (.unknownInstruction c) := by
  unfold readTwo
  split
  · next e h =>
    rintro ⟨⟩
    exact readOperand_ne_unknown h
  · split
    · next e h =>
      rintro ⟨⟩
      exact readOperand_ne_unknown h
    · simp

theorem readOperands_ne_unknown (op : Op) : readOperands read b op ≠ .error (.unknownInstruction c) := by
  cases op with
  | hlt => simp [readOperands]
  | push | pop | prn => exact readOne_ne_unknown
  | ldi | add | mul => exact readTwo_ne_unknown

/-- The decoder answers UnknownInstruction for a byte exactly if the lookup finds no row for it (R82). -/
theorem decodeAt_unknown_iff {cfg : Config} (h : read 0 = .ok b) :
    decodeAt cfg read = .error (.unknownInstruction b) ↔ lookupOpcode cfg b = none := by
  cases hl : lookupOpcode cfg b with
  | none => simp [decodeAt, h, hl]
  | some op => simp [decodeAt, h, hl, readOperands_ne_unknown]

end

theorem decode_eq_error_iff {cfg : Config} {bs : List Byte} {e : DecodeError Nat} :
    decode cfg bs = .error e ↔ decodeAt cfg (byteAt bs) = .error e := by
  unfold decode
  split <;> simp [*]

/-- The bytes of the rows a machine has, as numbers. -/
def rowBytes (cfg : Config) : Finset Nat := ((opcodeMap cfg).map (·.1.toNat)).toFinset

theorem rowBytes_subset (cfg : Config) : rowBytes cfg ⊆ Finset.range 256 := by
  intro n hn
  obtain ⟨row, -, rfl⟩ : ∃ row ∈ opcodeMap cfg, row.1.toNat = n := by simpa [rowBytes] using hn
  exact Finset.mem_range.2 row.1.isLt

/-- No two rows have one byte: there are six, and ADD where the machine has it. -/
theorem rowBytes_card (cfg : Config) : (rowBytes cfg).card = if cfg.addOpcode then 7 else 6 := by
  obtain ⟨sp, add⟩ := cfg
  cases add <;> rfl

theorem lookupOpcode_ofNat_isNone_iff {cfg : Config} {n : Nat} (hn : n < 256) :
    (lookupOpcode cfg (BitVec.ofNat 8 n)).isNone = true ↔ n ∉ rowBytes cfg := by
  have hbyte (b : Byte) : BitVec.ofNat 8 n = b ↔ b.toNat = n := by
    rw [← BitVec.toNat_inj, BitVec.toNat_ofNat, Nat.mod_eq_of_lt hn, eq_comm]
  simp [lookupOpcode, rowBytes, List.lookup_eq_none_iff, hbyte]

/-- R67's count of the illegal bytes: all 256 but those of the rows. -/
theorem unknownOpcode_count (cfg : Config) :
    ((List.range 256).filter fun n => (lookupOpcode cfg (BitVec.ofNat 8 n)).isNone).length =
      if cfg.addOpcode then 249 else 250 := by
  have hset : ((List.range 256).filter fun n => (lookupOpcode cfg (BitVec.ofNat 8 n)).isNone).toFinset =
      Finset.range 256 \ rowBytes cfg := by
    ext n
    simp only [List.mem_toFinset, List.mem_filter, List.mem_range, Finset.mem_sdiff, Finset.mem_range]
    exact and_congr_right lookupOpcode_ofNat_isNone_iff
  calc _ = (Finset.range 256 \ rowBytes cfg).card := by
        rw [← hset, List.toFinset_card_of_nodup (List.nodup_range.filter _)]
    _ = 256 - (rowBytes cfg).card := by rw [Finset.card_sdiff_of_subset (rowBytes_subset cfg), Finset.card_range]
    _ = if cfg.addOpcode then 249 else 250 := by rw [rowBytes_card]; split <;> rfl

/-- Settles O4, from the lookup's two equivalences and the decoder's one error that comes from it. -/
theorem opcodeByteIsOneRowOrUnknown : Obligations.OpcodeByteIsOneRowOrUnknown :=
  ⟨fun _ _ _ => lookupOpcode_eq_some_iff,
    fun _ _ _ => decode_eq_error_iff.trans ((decodeAt_unknown_iff rfl).trans lookupOpcode_eq_none_iff),
    unknownOpcode_count⟩

end Sys2Proof

/-! # Steps and inputs of a stopped machine (40_cycle.md R80) -/

namespace Sys2Proof.Machine

theorem core_run_succ {M : Host.Core} {s t : M.State} (h : M.step s = .next t) (n : Nat) :
    M.run (n + 1) s = M.run n t := by
  rw [Host.Core.run, h]

theorem core_run_stopped {s : State} (h : s.status ≠ .running) (n : Nat) :
    Host.Core.run Sys2Proof.core n s = .next s := by
  induction n with
  | zero => rfl
  | succ n ih => exact (core_run_succ (M := Sys2Proof.core) (step_stopped h) n).trans ih

/-- The one input that can change a stopped machine is reset: the load port is closed, and a step does
nothing. -/
theorem eq_reset_of_applyInput_stopped {s t : State} {inp : HostInput} (hs : s.status ≠ .running)
    (h : applyInput inp s = .next t) (hne : t ≠ s) : inp = .reset := by
  cases inp with
  | reset => rfl
  | load addr data => exact absurd ((loadPort_stopped hs addr data).symm.trans h) nofun
  | step => exact absurd (Host.Outcome.next.inj (h.symm.trans (step_stopped hs))) hne

/-- Settles O8: a stopped step answers its own state, so a run does, and only reset is left to change it. -/
theorem stoppedMachineDoesNothing : Obligations.StoppedMachineDoesNothing :=
  fun s hs => ⟨step_stopped hs, core_run_stopped hs, fun _ _ => eq_reset_of_applyInput_stopped hs,
    resetInput s, rfl, rfl⟩

end Sys2Proof.Machine

/-! # The first bad register byte (40_cycle.md R84) -/

namespace Sys2Proof.Machine

/-- The register check on the first of the register fields `b :: bs`: it takes the fault of the first
bad byte `r`, if what runs after it does so where that byte is among `bs`. -/
theorem withReg_firstBad {o b r : Byte} {bs : List Byte} {s : State} {k : Fin 8 → Outcome}
    (h : (b :: bs).find? (fun c => decide (8 ≤ c.toNat)) = some r)
    (hk : bs.find? (fun c => decide (8 ≤ c.toNat)) = some r →
      ∀ i, k i = .next (raiseFault (some o) (.register r) s)) :
    withReg o b s k = .next (raiseFault (some o) (.register r) s) := by
  rcases withReg_cases o b s k with ⟨hb, e⟩ | ⟨hb, e⟩
  · rw [List.find?_cons_of_neg (by simpa using hb)] at h
    exact e.trans (hk h _)
  · rw [List.find?_cons_of_pos (by simpa using hb)] at h
    obtain rfl := Option.some.inj h
    exact e

theorem aluInstr_firstBad {a b r : Byte} (h : [a, b].find? (fun c => decide (8 ≤ c.toNat)) = some r)
    (o : Byte) (op : AluOp) (s : State) :
    aluInstr o op a b s = .next (raiseFault (some o) (.register r) s) :=
  withReg_firstBad h fun hb _ => withReg_firstBad hb nofun

/-- The register check reports the first register byte of 8 or more. -/
theorem exec_firstBad {i : Instr} {r : Byte}
    (h : i.registerFields.find? (fun c => decide (8 ≤ c.toNat)) = some r) (s : State) :
    exec i s = .next (faulted .outOfBounds (some i.op.code) (.register r) s) := by
  cases i with
  | hlt => exact nomatch h
  | push | pop | prn | ldi => exact withReg_firstBad h nofun
  | add a b => exact aluInstr_firstBad h Opcode.add .add s
  | mul a b => exact aluInstr_firstBad h Opcode.mul .mul s

/-- A running machine executes the enabled instruction whose encoding memory holds at `pc` (40_cycle.md R88). -/
theorem step_of_holdsInstr {s : State} {i : Instr} (hs : s.status = .running)
    (hi : i.enabled s.cfg = true) (hm : HoldsInstr s s.pc i) : step s = exec i s :=
  step_ok hs (fetchInstr_ok_iff.2 ⟨hi, hm⟩)

/-- Settles O12: the check reports the first bad byte, a step that fetches the instruction executes it,
and LDI with an existing register completes for every immediate. -/
theorem firstBadRegisterByteFaults : Obligations.FirstBadRegisterByteFaults :=
  ⟨fun _ _ s h => ⟨exec_firstBad h s, fun hs hi hm => (step_of_holdsInstr hs hi hm).trans (exec_firstBad h s)⟩,
    fun _ _ _ hr => ⟨_, execLdi_eq hr, rfl⟩⟩

end Sys2Proof.Machine

/-! # LDI and PRN (41_basic.md R100, R101), and the operand fetch of a step (40_cycle.md R83) -/

namespace Sys2Proof.Machine

/-- A known opcode whose operand bytes run past memory: a step takes the fault of the operand fetch at
address 256, before any register check (40_cycle.md R83). -/
theorem step_operandFetchFault {s : State} {op : Op} (hs : s.status = .running)
    (hm : memRead s s.pc = .ok op.code) (hop : op = .add → s.cfg.addOpcode = true)
    (hlen : 255 < s.pc + op.format.operands) :
    step s = .next (faulted .outOfBounds (some op.code) (.address 256) s) := by
  have hl : lookupOpcode s.cfg op.code = some op := lookupOpcode_eq_some_iff.2 ⟨rfl, hop⟩
  have hpc : s.pc ≤ 255 := Nat.le_of_not_lt fun h => nomatch (memRead_error h).symm.trans hm
  have hf : fetchInstr s = .error (.noByte (some op.code) (.address 256)) := by
    rcases readOperands_cases op hpc with ⟨hle, -⟩ | ⟨-, he⟩
    · omega
    · simpa [fetchInstr, decodeAt, fetchByte, hm, hl] using he
  exact step_error hs hf

/-- Memory holds the bytes `bs` from address `a` on, all inside memory. -/
def HoldsBytes (s : State) (a : Nat) (bs : List Byte) : Prop :=
  ∀ k b, bs[k]? = some b → memRead s (a + k) = .ok b

theorem holdsBytes_encode {s : State} {a : Nat} {i : Instr} : HoldsBytes s a (encode i) ↔ HoldsInstr s a i := Iff.rfl

theorem holdsBytes_nil (s : State) (a : Nat) : HoldsBytes s a [] := nofun

theorem holdsBytes_cons {s : State} {a : Nat} {b : Byte} {bs : List Byte} (h : memRead s a = .ok b)
    (hbs : HoldsBytes s (a + 1) bs) : HoldsBytes s a (b :: bs) := by
  intro k v hk
  cases k with
  | zero => exact Option.some.inj hk ▸ h
  | succ k => exact Nat.add_right_comm a 1 k ▸ hbs k v hk

/-- The output port delivers what was appended to the output (10_state.md R37). -/
theorem delivered_of_out {s t : State} {o : List Byte} (h : t.out = s.out ++ o) : delivered s t = o := by
  rw [delivered, h, List.drop_left]

/-- Settles O17: the state LDI leaves, field by field; its register check; and the two ways a step on its
opcode byte can go, by whether its operand bytes are inside memory. -/
theorem loadImmediateWritesItsRegister : Obligations.LoadImmediateWritesItsRegister := by
  refine ⟨fun r v s => ?_, fun b v s hb => withReg_error hb, fun s hs hm => ⟨fun hlen => ?_, fun b v h1 h2 => ?_⟩⟩
  · exact ⟨_, exec_ldi_regByte r v s, readReg_writeReg_same r v s, fun j hj => readReg_writeReg_other hj v s,
      fun _ => rfl, ⟨rfl, rfl, rfl⟩, rfl, rfl⟩
  · exact step_operandFetchFault (op := .ldi) hs hm nofun hlen
  · exact step_of_holdsInstr hs rfl (holdsBytes_encode.1
      (holdsBytes_cons hm (holdsBytes_cons h1 (holdsBytes_cons h2 (holdsBytes_nil s _)))))

/-- Settles O18: the state PRN leaves, field by field, and what its output port delivers; its register
check; and the two ways a step on its opcode byte can go, by whether its operand byte is inside memory. -/
theorem printEmitsItsRegister : Obligations.PrintEmitsItsRegister := by
  refine ⟨fun r s => ?_, fun b s hb => withReg_error hb, fun s hs hm => ⟨fun hlen => ?_, fun b h1 => ?_⟩⟩
  · have hout : (advance 1 (emit (readReg s r) s)).out = s.out ++ [readReg s r] := rfl
    have hdel := delivered_of_out hout
    exact ⟨_, exec_prn_regByte r s, hout, hdel, congrArg printedLines hdel,
      fun _ => rfl, fun _ => rfl, ⟨rfl, rfl, rfl⟩, rfl⟩
  · exact step_operandFetchFault (op := .prn) hs hm nofun hlen
  · exact step_of_holdsInstr hs rfl (holdsBytes_encode.1
      (holdsBytes_cons hm (holdsBytes_cons h1 (holdsBytes_nil s _))))

end Sys2Proof.Machine

/-! # The ALU and the instructions that drive it (43_alu.md R110 to R115) -/

namespace Sys2Proof.Machine

/-- Settles O25: the two results are `wrap8` of the sum and the product, which reduces modulo 256. -/
theorem aluComputesModulo256 : Obligations.AluComputesModulo256 :=
  fun a b => ⟨⟨_, alu_add a b, wrap8_toNat _⟩, ⟨_, alu_mul a b, wrap8_toNat _⟩, alu_other a b⟩

/-- The frame of a meaning that writes one register, after its advance: what differs in `t` is that
register and `pc`. -/
theorem frame_advance_writeReg (n : Nat) (r : Fin 8) (v : Byte) (s : State) :
    let t := advance n (writeReg r v s)
    SameRegsBut r s t ∧ SameMemory s t ∧ SameControl s t ∧ t.out = s.out ∧ t.pc = s.pc + 1 + n :=
  ⟨fun _ hj => readReg_writeReg_other hj v s, fun _ => rfl, ⟨rfl, rfl, rfl⟩, rfl, rfl⟩

theorem readReg_advance_writeReg_wrap8 (n : Nat) (r : Fin 8) (x : Nat) (s : State) :
    (readReg (advance n (writeReg r (wrap8 x) s)) r).toNat = x % 256 := by
  rw [readReg_advance, readReg_writeReg_same, wrap8_toNat]

/-! The register checks of an ALU instruction, first byte before second (40_cycle.md R84). -/

theorem aluInstr_badFirst {a : Byte} (ha : 8 ≤ a.toNat) (o : Byte) (op : AluOp) (b : Byte) (s : State) :
    aluInstr o op a b s = .next (faulted .outOfBounds (some o) (.register a) s) :=
  withReg_error ha

theorem aluInstr_badSecond {a b : Byte} (ha : a.toNat < 8) (hb : 8 ≤ b.toNat) (o : Byte) (op : AluOp) (s : State) :
    aluInstr o op a b s = .next (faulted .outOfBounds (some o) (.register b) s) :=
  (withReg_ok ha).trans (withReg_error hb)

/-- A running machine that has the three-byte instruction `i` executes it where memory holds its bytes. -/
theorem step_of_threeBytes {s : State} {i : Instr} {b₀ b₁ b₂ : Byte} (hs : s.status = .running)
    (hi : i.enabled s.cfg = true) (henc : encode i = [b₀, b₁, b₂]) (h₀ : memRead s s.pc = .ok b₀)
    (h₁ : memRead s (s.pc + 1) = .ok b₁) (h₂ : memRead s (s.pc + 2) = .ok b₂) : step s = exec i s := by
  refine step_of_holdsInstr hs hi (holdsBytes_encode.1 ?_)
  rw [henc]
  exact holdsBytes_cons h₀ (holdsBytes_cons h₁ (holdsBytes_cons h₂ (holdsBytes_nil s _)))

/-- A byte that the lookup does not find stops the run with UnknownInstruction (40_cycle.md R82). -/
theorem step_unknownOpcode {s : State} {b : Byte} (hs : s.status = .running) (hm : memRead s s.pc = .ok b)
    (hl : lookupOpcode s.cfg b = none) :
    step s = .next (faulted .unknownInstruction (some b) (.opcode b) s) :=
  step_error hs ((decodeAt_unknown_iff (read := fetchByte s) hm).2 hl)

/-- The opcode byte of ADD is no row of a machine without `P_ADD_OPCODE` (30_encoding.md R67). -/
theorem lookupOpcode_add_disabled {cfg : Config} (h : cfg.addOpcode = false) :
    lookupOpcode cfg Op.add.code = none := by
  simp [lookupOpcode_code, h]

/-- Settles O20: the product is written to the first register and nothing else but `pc` differs; the
register checks in order; and the two ways a step on its opcode byte can go, by whether its operand bytes
are inside memory. -/
theorem multiplyWritesTheProduct : Obligations.MultiplyWritesTheProduct := by
  refine ⟨fun a b s => ?_, fun a b s => ⟨fun ha => ?_, fun ha hb => ?_⟩,
    fun s hs hm => ⟨fun hlen => ?_, fun a b h₁ h₂ => ?_⟩⟩
  · exact ⟨_, exec_mul_regByte a b s, readReg_advance_writeReg_wrap8 .., frame_advance_writeReg ..⟩
  · exact aluInstr_badFirst ha Opcode.mul .mul b s
  · exact aluInstr_badSecond ha hb Opcode.mul .mul s
  · exact step_operandFetchFault (op := .mul) hs hm nofun hlen
  · exact step_of_threeBytes hs rfl rfl hm h₁ h₂

/-- Settles O21: as for MUL where the machine has ADD; where it does not, the lookup finds no row for
its opcode byte. -/
theorem addWritesTheSum : Obligations.AddWritesTheSum := by
  refine ⟨fun a b s => ?_, fun a b s => ⟨fun ha => ?_, fun ha hb => ?_⟩,
    fun s hs hm => ⟨fun hoff => ?_, fun hon => ⟨fun hlen => ?_, fun a b h₁ h₂ => ?_⟩⟩⟩
  · exact ⟨_, exec_add_regByte a b s, readReg_advance_writeReg_wrap8 .., frame_advance_writeReg ..⟩
  · exact aluInstr_badFirst ha Opcode.add .add b s
  · exact aluInstr_badSecond ha hb Opcode.add .add s
  · exact step_unknownOpcode hs hm (lookupOpcode_add_disabled hoff)
  · exact step_operandFetchFault (op := .add) hs hm (fun _ => hon) hlen
  · exact step_of_threeBytes hs hon rfl hm h₁ h₂

end Sys2Proof.Machine

/-! # PUSH and POP (44_stack.md R121, R122) -/

namespace Sys2Proof.Machine

/-- What memory reads as after PUSH: the byte pushed at the decremented SP, every other cell as before. -/
theorem memRead_pushed {s : State} (h : s.mem.wf = true) (r : Fin 8) (a : Nat) :
    memRead (pushed r s) a =
      if a = (decByte (readReg s spIndex)).toNat then
        .ok (if r = spIndex then decByte (readReg s spIndex) else readReg s r)
      else memRead s a := by
  rw [← memRead_setMem_write h _ (byte_le_255 _)]
  exact memRead_of_mem (pushed_mem r s) a

theorem memRead_pushed_sp {s : State} (h : s.mem.wf = true) (r : Fin 8) :
    memRead (pushed r s) (decByte (readReg s spIndex)).toNat =
      .ok (if r = spIndex then decByte (readReg s spIndex) else readReg s r) :=
  (memRead_pushed h r _).trans (if_pos rfl)

theorem sameMemoryBut_pushed {s : State} (h : s.mem.wf = true) (r : Fin 8) :
    SameMemoryBut (decByte (readReg s spIndex)).toNat s (pushed r s) :=
  fun a ha => (memRead_pushed h r a).trans (if_neg ha)

theorem readReg_pushed_sp (r : Fin 8) (s : State) : readReg (pushed r s) spIndex = decByte (readReg s spIndex) :=
  (readReg_pushed r spIndex s).trans (if_pos rfl)

/-- PUSH changes no register but SP: "PUSH does not clear source" (44_stack.md R121). -/
theorem sameRegsBut_pushed (r : Fin 8) (s : State) : SameRegsBut spIndex s (pushed r s) :=
  fun j hj => (readReg_pushed r j s).trans (if_neg hj)

/-- SP after POP into R7: the byte popped plus 1 (44_stack.md R122). -/
theorem readReg_popped_sp_self (s : State) :
    readReg (popped spIndex s) spIndex = incByte (s.mem.read (readReg s spIndex).toNat) := by
  rw [readReg_popped, if_pos rfl, if_pos rfl]

theorem readReg_popped_sp {r : Fin 8} (hr : r ≠ spIndex) (s : State) :
    readReg (popped r s) spIndex = incByte (readReg s spIndex) := by
  rw [readReg_popped, if_pos rfl, if_neg hr]

theorem readReg_popped_same {r : Fin 8} (hr : r ≠ spIndex) (s : State) :
    readReg (popped r s) r = s.mem.read (readReg s spIndex).toNat := by
  rw [readReg_popped, if_neg hr, if_pos rfl]

theorem readReg_popped_other {r j : Fin 8} (hj : j ≠ r) (hsp : j ≠ spIndex) (s : State) :
    readReg (popped r s) j = readReg s j := by
  rw [readReg_popped, if_neg hsp, if_neg hj]

/-- A running machine that has the two-byte instruction `i` executes it where memory holds its bytes. -/
theorem step_of_twoBytes {s : State} {i : Instr} {b₀ b₁ : Byte} (hs : s.status = .running)
    (hi : i.enabled s.cfg = true) (henc : encode i = [b₀, b₁]) (h₀ : memRead s s.pc = .ok b₀)
    (h₁ : memRead s (s.pc + 1) = .ok b₁) : step s = exec i s := by
  refine step_of_holdsInstr hs hi (holdsBytes_encode.1 ?_)
  rw [henc]
  exact holdsBytes_cons h₀ (holdsBytes_cons h₁ (holdsBytes_nil s _))

/-- Settles O22: the state PUSH leaves, by what its registers and its memory read as; its register check;
and the two ways a step on its opcode byte can go, by whether its operand byte is inside memory. -/
theorem pushStoresAtTheDecrementedSp : Obligations.PushStoresAtTheDecrementedSp := by
  refine ⟨fun r s hwf => ?_, fun b s hb => withReg_error hb, fun s hs hm => ⟨fun hlen => ?_, fun b h₁ => ?_⟩⟩
  · have hsp : (readReg (pushed r s) 7).toNat = (decByte (readReg s 7)).toNat :=
      congrArg BitVec.toNat (readReg_pushed_sp r s)
    exact ⟨_, exec_push_regByte r s, hsp.trans (decByte_toNat _), sameRegsBut_pushed r s,
      memRead_pushed_sp hwf r, hsp, sameMemoryBut_pushed hwf r, ⟨rfl, rfl, rfl⟩, rfl, rfl⟩
  · exact step_operandFetchFault (op := .push) hs hm nofun hlen
  · exact step_of_twoBytes hs rfl rfl hm h₁

/-- Settles O23: the byte at SP is inside memory; the state POP leaves, with SP split by whether R7 is the
register popped into; its register check; and the two ways a step on its opcode byte can go, by whether
its operand byte is inside memory. -/
theorem popReadsAtSpAndIncrements : Obligations.PopReadsAtSpAndIncrements := by
  refine ⟨fun r s => ?_, fun b s hb => withReg_error hb, fun s hs hm => ⟨fun hlen => ?_, fun b h₁ => ?_⟩⟩
  · refine ⟨_, _, memRead_ok (byte_le_255 _), exec_pop_regByte r s, fun hr => ⟨?_, ?_⟩, ?_,
      fun j hj hsp => readReg_popped_other hj hsp s, fun _ => rfl, ⟨rfl, rfl, rfl⟩, rfl, rfl⟩
    · exact readReg_popped_same hr s
    · exact (congrArg BitVec.toNat (readReg_popped_sp hr s)).trans (incByte_toNat _)
    · rintro rfl
      exact (congrArg BitVec.toNat (readReg_popped_sp_self s)).trans (incByte_toNat _)
  · exact step_operandFetchFault (op := .pop) hs hm nofun hlen
  · exact step_of_twoBytes hs rfl rfl hm h₁

end Sys2Proof.Machine

/-! # Faults of a step: the unknown opcode (60_exceptions.md R131), and precision (R138) -/

namespace Sys2Proof.Machine

/-- The opcode map has no row but those of R63, and ADD's only with `P_ADD_OPCODE` (30_encoding.md R67). -/
theorem lookupOpcode_eq_none_of_notMem {cfg : Config} {b : Byte}
    (hb : b ∉ ([0x01, 0x45, 0x46, 0x47, 0x82, 0xA2] : List Byte)) (hadd : b = 0xA0 → cfg.addOpcode = false) :
    lookupOpcode cfg b = none := by
  refine lookupOpcode_eq_none_iff.2 fun op h => ?_
  subst h
  cases op with
  | add => exact ⟨rfl, hadd rfl⟩
  | hlt | push | pop | prn | ldi | mul => exact absurd (by decide) hb

/-- Settles O10: the lookup finds no row for the byte, so the step takes the fault of the decode phase. -/
theorem unknownOpcodeStopsTheRun : Obligations.UnknownOpcodeStopsTheRun :=
  ⟨rfl, fun _ _ hs hm hb hadd => step_unknownOpcode hs hm (lookupOpcode_eq_none_of_notMem hb hadd)⟩

/-- Execution of an instruction whose registers exist raises no fault (60_exceptions.md R134). -/
theorem exec_status_ne_fault {i : Instr} {s t : State} (hr : i.registersOk = true) (hs : s.status = .running)
    (h : exec i s = .next t) : t.status ≠ .fault := by
  obtain ⟨-, -, hstatus⟩ := exec_frame hr h
  rw [hstatus, hs]
  split <;> decide

/-- A step that goes from RUNNING to FAULT has taken a fault and done nothing else (60_exceptions.md R130). -/
theorem eq_raiseFault_of_step_fault {s t : State} (hs : s.status = .running) (h : step s = .next t)
    (ht : t.status = .fault) : ∃ o d, t = raiseFault o d s := by
  rcases step_running_cases hs with ⟨o, d, e⟩ | ⟨i, -, hr, e⟩
  · exact ⟨o, d, Host.Outcome.next.inj (h.symm.trans e)⟩
  · exact absurd ht (exec_status_ne_fault hr hs (e.symm.trans h))

/-- Settles O13: the step took a fault, which writes only status and the record, and the record holds `pc`. -/
theorem faultsArePrecise : Obligations.FaultsArePrecise := by
  intro s t hs h ht
  obtain ⟨o, d, rfl⟩ := eq_raiseFault_of_step_fault hs h ht
  exact ⟨fun _ => rfl, rfl, fun _ => rfl, rfl, rfl, _, rfl, rfl, rfl⟩

end Sys2Proof.Machine

/-! # The launch of a run (70_reset_and_hazards.md R151, R152) -/

namespace Sys2Proof.Machine

/-- The load port is open on a running machine at `pc` 0 (10_state.md R36). -/
theorem loadPort_ready {s : State} (hs : s.status = .running) (hpc : s.pc = 0) (addr data : Byte) :
    loadPort addr data s = .next { s with mem := s.mem.write addr.toNat data } := by
  simp [loadPort, beforeFirstStep, hs, hpc]

/-- Loading bytes that fit writes only memory, keeps it canonical, and puts byte `k` at `i + k`. -/
theorem loadFrom_fits {bs : List Byte} {i : Nat} {s : State} (hs : s.status = .running) (hpc : s.pc = 0)
    (hwf : s.mem.wf = true) (hlen : i + bs.length ≤ 256) :
    ∃ m : Memory, loadFrom i bs s = .next { s with mem := m } ∧ m.wf = true ∧
      ∀ a, m.read a = if a < i then s.mem.read a else bs[a - i]?.getD (s.mem.read a) := by
  induction bs generalizing i s with
  | nil => exact ⟨s.mem, rfl, hwf, by simp⟩
  | cons b bs ih =>
    rw [List.length_cons] at hlen
    have haddr : (BitVec.ofNat 8 i).toNat = i := Nat.mod_eq_of_lt (by omega)
    obtain ⟨m, hload, hm, hread⟩ := ih (i := i + 1) (s := { s with mem := s.mem.write i b }) hs hpc
      (Memory.wf_write hwf (by omega) b) (by omega)
    refine ⟨m, ?_, hm, fun a => ?_⟩
    · rw [loadFrom, loadPort_ready hs hpc, haddr]
      exact hload
    · rw [hread a, Memory.read_write hwf]
      rcases Nat.lt_trichotomy a i with hlt | rfl | hgt
      · rw [if_pos (by omega), if_neg (by omega), if_pos hlt]
      · simp
      · obtain ⟨k, rfl⟩ := Nat.exists_eq_add_of_lt hgt
        simp [show i + k + 1 - (i + 1) = k by omega, show i + k + 1 - i = k + 1 by omega,
          show ¬i + k + 1 < i by omega, show ¬i + k + 1 = i by omega]

/-- Settles O41: loading into the reset state, where the load port is open and every cell reads 0; the length
check comes before the load. -/
theorem launchPlacesTheImage : Obligations.LaunchPlacesTheImage := by
  refine fun cfg image => ⟨fun hlen => ?_, fun hlong => if_pos hlong⟩
  obtain ⟨m, hload, -, hread⟩ := loadFrom_fits (bs := image) (i := 0) (s := State.resetWith cfg) rfl rfl
    (Memory.wf_reset cfg) (by omega)
  refine ⟨{ State.resetWith cfg with mem := m }, (if_neg (by omega)).trans hload, fun a ha => ?_, rfl⟩
  rw [memRead_ok ha, hread a, if_neg (Nat.not_lt_zero a)]
  rfl

end Sys2Proof.Machine

/-! # Decoder and encoder on lists of bytes (30_encoding.md R62, R68, R72) -/

namespace Sys2Proof

theorem byteAt_eq_ok_iff {bs : List Byte} {k : Nat} {b : Byte} : byteAt bs k = .ok b ↔ bs[k]? = some b := by
  unfold byteAt
  split <;> simp [*]

theorem decode_eq_ok_iff {cfg : Config} {bs rest : List Byte} {i : Instr} :
    decode cfg bs = .ok (i, rest) ↔ decodeAt cfg (byteAt bs) = .ok i ∧ bs.drop i.length = rest := by
  unfold decode
  split
  · simp [*]
  · next j h =>
    rw [h]
    constructor
    · rintro ⟨⟩
      exact ⟨rfl, rfl⟩
    · rintro ⟨⟨⟩, rfl⟩
      rfl

/-- A reader of the list `bs` gives the bytes of `l`, number by number, exactly if `bs` begins with `l`. -/
theorem forall_byteAt_iff_isPrefix {l bs : List Byte} :
    (∀ k b, l[k]? = some b → byteAt bs k = .ok b) ↔ l <+: bs := by
  simp only [byteAt_eq_ok_iff, List.prefix_iff_getElem?]
  constructor
  · exact fun h k hk => h k _ (List.getElem?_eq_getElem hk)
  · intro h k b hk
    obtain ⟨hlt, rfl⟩ := List.getElem?_eq_some_iff.1 hk
    exact h k hlt

theorem decode_eq_ok_iff_encode {cfg : Config} {bs rest : List Byte} {i : Instr} :
    decode cfg bs = .ok (i, rest) ↔ i.enabled cfg = true ∧ bs = encode i ++ rest := by
  rw [decode_eq_ok_iff]
  constructor
  · rintro ⟨h, rfl⟩
    obtain ⟨hi, hbytes⟩ := bytes_of_decodeAt h
    obtain ⟨rest, rfl⟩ := forall_byteAt_iff_isPrefix.1 hbytes
    exact ⟨hi, by rw [← encode_length, List.drop_left]⟩
  · rintro ⟨hi, rfl⟩
    exact ⟨decodeAt_of_bytes hi (forall_byteAt_iff_isPrefix.2 (List.prefix_append _ _)),
      by rw [← encode_length, List.drop_left]⟩

/-- Settles O2: the reader of the bytes `encode i ++ rest` gives those of `encode i`, and the rest follows. -/
theorem decodeOfEncodeGivesItBack : Obligations.DecodeOfEncodeGivesItBack :=
  fun _ _ _ hi => decode_eq_ok_iff_encode.2 ⟨hi, rfl⟩

/-- Settles O3: what decodes begins with its encoding, read byte by byte. -/
theorem encodeOfDecodeGivesTheBytes : Obligations.EncodeOfDecodeGivesTheBytes :=
  fun _ _ _ _ h => decode_eq_ok_iff_encode.1 h

/-- Settles O1, by running the decoder on each word. -/
theorem decodeReadsTheSpecsWords : Obligations.DecodeReadsTheSpecsWords :=
  ⟨rfl, rfl, rfl, rfl, rfl, rfl, rfl, rfl⟩

end Sys2Proof

/-! # What one step can do, and the invariant (40_cycle.md R80 to R88; 10_state.md R26, R27, R29) -/

namespace Sys2Proof.Machine

/-- The faults a step from `s` can take, as opcode and detail of the record: those of the opcode fetch, the
decoder, the operand fetch and the register check (40_cycle.md R81 to R84). -/
inductive StepFault (s : State) : Option Byte → Detail → Prop
  | opcodeFetch : 255 < s.pc → StepFault s none (.address s.pc)
  | unknownOpcode (b : Byte) : lookupOpcode s.cfg b = none → StepFault s (some b) (.opcode b)
  | operandFetch (op : Op) : s.pc ≤ 255 → lookupOpcode s.cfg op.code = some op →
      StepFault s (some op.code) (.address 256)
  | registerCheck (op : Op) (r : Byte) : lookupOpcode s.cfg op.code = some op → 8 ≤ r.toNat →
      StepFault s (some op.code) (.register r)

/-- An instruction with a register byte of 8 or more has a first one. -/
theorem exists_firstBad {i : Instr} (h : ¬i.registersOk = true) :
    ∃ r, i.registerFields.find? (fun c => decide (8 ≤ c.toNat)) = some r ∧ 8 ≤ r.toNat := by
  obtain ⟨r, hr⟩ : ∃ r, i.registerFields.find? (fun c => decide (8 ≤ c.toNat)) = some r := by
    rw [← Option.ne_none_iff_exists']
    intro hnone
    refine h (List.all_eq_true.2 fun r hr => ?_)
    simpa [regByteOk] using List.find?_eq_none.1 hnone r hr
  exact ⟨r, hr, by simpa using List.find?_some hr⟩

/-- Everything a step can do: nothing, if the machine has stopped; else take one of the faults above, or
complete the instruction whose bytes memory holds at `pc`, all of whose registers exist. -/
theorem step_inversion {s t : State} (h : step s = .next t) :
    (s.status ≠ .running ∧ t = s) ∨
      (s.status = .running ∧ ∃ o d, StepFault s o d ∧ t = raiseFault o d s) ∨
      (s.status = .running ∧ ∃ i : Instr, HoldsInstr s s.pc i ∧ i.registersOk = true ∧ exec i s = .next t) := by
  by_cases hs : s.status = .running
  · rcases fetchInstr_cases s with ⟨i, hf, hi, -, hm⟩ | ⟨hpc, hf⟩ | ⟨b, -, hl, hf⟩ | ⟨op, hpc, -, hl, -, hf⟩
    · have he := (step_ok hs hf).symm.trans h
      by_cases hr : i.registersOk = true
      · exact .inr (.inr ⟨hs, i, hm, hr, he⟩)
      · obtain ⟨r, hfirst, h8⟩ := exists_firstBad hr
        exact .inr (.inl ⟨hs, _, _, .registerCheck i.op r (lookupOpcode_op hi) h8,
          Host.Outcome.next.inj (he.symm.trans (exec_firstBad hfirst s))⟩)
    · exact .inr (.inl ⟨hs, _, _, .opcodeFetch hpc, Host.Outcome.next.inj (h.symm.trans (step_error hs hf))⟩)
    · exact .inr (.inl ⟨hs, _, _, .unknownOpcode b hl, Host.Outcome.next.inj (h.symm.trans (step_error hs hf))⟩)
    · exact .inr (.inl ⟨hs, _, _, .operandFetch op hpc hl, Host.Outcome.next.inj (h.symm.trans (step_error hs hf))⟩)
  · exact .inl ⟨hs, Host.Outcome.next.inj (h.symm.trans (step_stopped hs))⟩

/-- The opcode byte of an instruction that memory holds. -/
theorem memRead_of_holdsInstr {s : State} {a : Nat} {i : Instr} (h : HoldsInstr s a i) :
    memRead s a = .ok i.op.code :=
  h 0 _ (encode_head i)

/-- A fault of a step from `pc` at most 256 leaves a record that R131 and R133 allow. -/
theorem stepFault_consistent {s : State} {o : Option Byte} {d : Detail} (h : StepFault s o d) (hpc : s.pc ≤ 256) :
    FaultRecord.consistent s.cfg s.pc ⟨d.code, s.pc, o, d⟩ = true := by
  cases h with
  | opcodeFetch h =>
    have h256 : s.pc = 256 := by omega
    simp [FaultRecord.consistent, h256]
  | unknownOpcode b hl => simp [FaultRecord.consistent, hl]
  | operandFetch op h hl => simp [FaultRecord.consistent, h, hl]
  | registerCheck op r hl h8 => simp [FaultRecord.consistent, h8, hl]

/-- An instruction all of whose bytes are in memory ends at most at address 256 (10_state.md R26). -/
theorem end_le_of_holdsInstr {s : State} {a : Nat} {i : Instr} (h : HoldsInstr s a i) : a + i.length ≤ 256 := by
  have hlen : i.operands < (encode i).length := by rw [encode_length, Instr.length]; omega
  have hlast := h _ _ (List.getElem?_eq_getElem hlen)
  rcases memRead_cases s (a + i.operands) with ⟨hle, -⟩ | ⟨-, e⟩
  · rw [Instr.length]; omega
  · exact nomatch e.symm.trans hlast

/-- `pc` after an instruction that completes. -/
theorem exec_pc {i : Instr} {s t : State} (hr : i.registersOk = true) (h : exec i s = .next t) :
    t.pc = s.pc + i.length := by
  obtain ⟨u, hu, hpc⟩ := exec_completes hr s
  obtain rfl := Host.Outcome.next.inj (h.symm.trans hu)
  exact hpc

/-- What an instruction that completes can write outside registers: PUSH one cell, PRN the output, and no
other either of them (20_memory.md R43, 10_state.md R30). -/
theorem exec_writes {i : Instr} {s t : State} (hr : i.registersOk = true) (h : exec i s = .next t) :
    (∃ r, i = .push (regByte r) ∧ t = pushed r s) ∨
      (∃ r, i = .prn (regByte r) ∧ t = advance 1 (emit (readReg s r) s)) ∨ (t.mem = s.mem ∧ t.out = s.out) := by
  induction i, hr using registersOk_cases with
  | hlt => exact .inr (.inr (Host.Outcome.next.inj (h.symm.trans (execHlt_eq s)) ▸ ⟨rfl, rfl⟩))
  | push r => exact .inl ⟨r, rfl, Host.Outcome.next.inj (h.symm.trans (exec_push_regByte r s))⟩
  | pop r => exact .inr (.inr (Host.Outcome.next.inj (h.symm.trans (exec_pop_regByte r s)) ▸ ⟨rfl, rfl⟩))
  | prn r => exact .inr (.inl ⟨r, rfl, Host.Outcome.next.inj (h.symm.trans (exec_prn_regByte r s))⟩)
  | ldi r v => exact .inr (.inr (Host.Outcome.next.inj (h.symm.trans (exec_ldi_regByte r v s)) ▸ ⟨rfl, rfl⟩))
  | add a b => exact .inr (.inr (Host.Outcome.next.inj (h.symm.trans (exec_add_regByte a b s)) ▸ ⟨rfl, rfl⟩))
  | mul a b => exact .inr (.inr (Host.Outcome.next.inj (h.symm.trans (exec_mul_regByte a b s)) ▸ ⟨rfl, rfl⟩))

theorem wf_pushed {s : State} (h : s.mem.wf = true) (r : Fin 8) : (pushed r s).mem.wf = true := by
  rw [pushed_mem]
  exact Memory.wf_write h (byte_le_255 _) _

theorem exec_keeps_wf {i : Instr} {s t : State} (hr : i.registersOk = true) (h : exec i s = .next t)
    (hwf : s.mem.wf = true) : t.mem.wf = true := by
  rcases exec_writes hr h with ⟨r, -, rfl⟩ | ⟨r, -, rfl⟩ | ⟨hm, -⟩
  · exact wf_pushed hwf r
  · exact hwf
  · rw [hm]; exact hwf

theorem fault_eq_none_of_faultOk {s : State} (h : s.faultOk = true) (hs : s.status ≠ .fault) : s.fault = none := by
  unfold State.faultOk at h
  split at h <;> simp_all

theorem faultOk_of_fault_eq_none {s : State} (hf : s.fault = none) (hs : s.status ≠ .fault) : s.faultOk = true := by
  unfold State.faultOk
  cases h : s.status <;> simp_all

/-- A fault taken where a step can take it keeps the invariant: nothing but status and record changes. -/
theorem inv_raiseFault {s : State} {o : Option Byte} {d : Detail} (hinv : s.Inv) (h : StepFault s o d) :
    (raiseFault o d s).Inv :=
  ⟨hinv.memory, hinv.pcRange, stepFault_consistent h hinv.pcRange⟩

/-- An instruction in memory at `pc`, executed in RUNNING, keeps the invariant. -/
theorem inv_exec {i : Instr} {s t : State} (hinv : s.Inv) (hs : s.status = .running) (hm : HoldsInstr s s.pc i)
    (hr : i.registersOk = true) (h : exec i s = .next t) : t.Inv := by
  have hne : s.status ≠ .fault := by simp [hs]
  obtain ⟨-, hfault, -⟩ := exec_frame hr h
  refine ⟨exec_keeps_wf hr h hinv.memory, ?_, ?_⟩
  · rw [exec_pc hr h]
    exact end_le_of_holdsInstr hm
  · exact faultOk_of_fault_eq_none (hfault.trans (fault_eq_none_of_faultOk hinv.fault hne))
      (exec_status_ne_fault hr hs h)

/-- Settles O37: a stopped machine stays as it is; a running one takes a fault of the step, whose record is
consistent, or executes an instruction that lies in memory at `pc`. -/
theorem stepKeepsTheInvariant : Obligations.StepKeepsTheInvariant := by
  intro s t hinv h
  rcases step_inversion h with ⟨-, rfl⟩ | ⟨-, o, d, hfault, rfl⟩ | ⟨hs, i, hm, hr, he⟩
  · exact hinv
  · exact inv_raiseFault hinv hfault
  · exact inv_exec hinv hs hm hr he

end Sys2Proof.Machine

/-! # Lengths, and the steps that execute an instruction in memory (40_cycle.md R86, R88, R89) -/

namespace Sys2Proof.Machine

/-- Settles O5: an instruction with existing registers completes with `pc` advanced by its length. -/
theorem instructionLengthsAreThePcAdvances : Obligations.InstructionLengthsAreThePcAdvances := by
  intro i s hr
  obtain ⟨t, ht, hpc⟩ := exec_completes hr s
  exact ⟨t, ht, by rw [encode_length, hpc], by cases i <;> rfl⟩

/-- Settles O6: the bytes that decode to `i` begin with its encoding, so memory holds it at `pc`. -/
theorem stepRunsTheDecodedInstruction : Obligations.StepRunsTheDecodedInstruction := by
  intro s bs rest i hs hm hdec
  obtain ⟨hi, rfl⟩ := decode_eq_ok_iff_encode.1 hdec
  refine step_of_holdsInstr hs hi fun k b hk => hm k b ?_
  rw [List.getElem?_append_left (List.getElem?_eq_some_iff.1 hk).1, hk]

/-- Settles O7: memory that holds the encoding of an enabled instruction at `pc` is fetched as it, and the
fetch has one answer. -/
theorem stepRunsTheEncodedInstruction : Obligations.StepRunsTheEncodedInstruction := by
  intro s i hs hi hm
  refine ⟨step_of_holdsInstr hs hi hm, fun j hj hmj => ?_⟩
  have hfi := fetchInstr_ok_iff.2 ⟨hi, hm⟩
  have hfj := fetchInstr_ok_iff.2 ⟨hj, hmj⟩
  exact Except.ok.inj (hfj.symm.trans hfi)

/-- Settles O9: the opcode fetch reads past memory, before anything is decoded. -/
theorem opcodeFetchPastMemoryFaults : Obligations.OpcodeFetchPastMemoryFaults := by
  intro s hs hpc
  have hf : fetchInstr s = .error (.noByte none (.address s.pc)) := by
    simp [fetchInstr, decodeAt, fetchByte, memRead_error hpc]
  exact step_error hs hf

/-- Settles O11, by the case of the operand fetch that runs past memory. -/
theorem operandFetchPastMemoryFaults : Obligations.OperandFetchPastMemoryFaults :=
  fun _ _ hs hm hop hlen => step_operandFetchFault hs hm hop hlen

theorem exec_next (i : Instr) (s : State) : ∃ t, exec i s = .next t := by
  by_cases hr : i.registersOk = true
  · obtain ⟨t, ht, -⟩ := exec_completes hr s
    exact ⟨t, ht⟩
  · obtain ⟨r, hr⟩ := exec_registerFault hr s
    exact ⟨_, hr⟩

theorem step_next (s : State) : ∃ t, step s = .next t := by
  by_cases hs : s.status = .running
  · rcases step_running_cases hs with ⟨o, d, e⟩ | ⟨i, -, -, e⟩
    · exact ⟨_, e⟩
    · exact e ▸ exec_next i s
  · exact ⟨s, step_stopped hs⟩

/-- Settles O14: an instruction completes or takes the fault of the register check; a step takes a fault,
executes an instruction, or does nothing. -/
theorem stepAndExecAlwaysAnswerANextState : Obligations.StepAndExecAlwaysAnswerANextState :=
  ⟨step_next, exec_next⟩

/-- Settles O16: a step that takes a fault leaves `pc`, and one that executes an instruction advances by the
length of that instruction's row. -/
theorem pcAdvancesByTheInstructionLength : Obligations.PcAdvancesByTheInstructionLength := by
  intro s t hs h
  rcases step_running_cases hs with ⟨o, d, e⟩ | ⟨i, hm, hr, e⟩
  · obtain rfl := Host.Outcome.next.inj (e.symm.trans h)
    exact ⟨fun hne => absurd rfl hne, fun _ => rfl⟩
  · have ht := e.symm.trans h
    exact ⟨fun _ => ⟨i.op, hm, exec_pc hr ht⟩, fun hf => absurd hf (exec_status_ne_fault hr hs ht)⟩

/-- Settles O19: HLT leaves a halted machine, on which no step does anything. -/
theorem haltStopsTheRun : Obligations.HaltStopsTheRun :=
  ⟨fun s => ⟨advance 0 (halt s), execHlt_eq s, rfl, rfl, fun _ => rfl, fun _ => rfl, rfl, rfl, rfl,
      core_run_stopped (by simp)⟩,
    fun _ hs hm => step_ok hs (fetchInstr_hlt hm)⟩

end Sys2Proof.Machine

/-! # The ALU: other selectors, and the facts of R116 (43_alu.md) -/

namespace Sys2Proof.Machine

/-- No fault that a step can take is of the ALU (60_exceptions.md R132). -/
theorem stepFault_code_ne_alu {s : State} {o : Option Byte} {d : Detail} (h : StepFault s o d) :
    d.code ≠ .unsupportedALUOperation := by
  cases h <;> simp [Detail.code]

/-- Settles O26: with existing registers the ALU answers an error for another selector; and a step leaves a
new record only by a fault it can take. -/
theorem unsupportedSelectorStopsAndIsNeverDriven : Obligations.UnsupportedSelectorStopsAndIsNeverDriven := by
  refine ⟨fun o a b s => (withReg_ok (regByte_lt a)).trans (withReg_ok (regByte_lt b)),
    fun s t r hs hnone h hrec => ?_⟩
  rcases step_inversion h with ⟨hne, -⟩ | ⟨-, o, d, hd, rfl⟩ | ⟨-, i, -, hr, he⟩
  · exact absurd hs hne
  · obtain rfl := Option.some.inj hrec
    exact stepFault_code_ne_alu hd
  · obtain ⟨-, hfault, -⟩ := exec_frame hr he
    exact nomatch hrec.symm.trans (hfault.trans hnone)

/-- `wrap8` is reduction to 8 bits. -/
theorem wrap8_eq_ofNat (n : Nat) : wrap8 n = BitVec.ofNat 8 n :=
  BitVec.eq_of_toNat_eq (by rw [wrap8_toNat, BitVec.toNat_ofNat])

theorem wrap8_add (a b : Byte) : wrap8 (a.toNat + b.toNat) = a + b := by
  rw [wrap8_eq_ofNat, BitVec.ofNat_add, BitVec.ofNat_toNat, BitVec.ofNat_toNat, BitVec.setWidth_eq, BitVec.setWidth_eq]

theorem wrap8_mul (a b : Byte) : wrap8 (a.toNat * b.toNat) = a * b := by
  rw [wrap8_eq_ofNat, BitVec.ofNat_mul, BitVec.ofNat_toNat, BitVec.ofNat_toNat, BitVec.setWidth_eq, BitVec.setWidth_eq]

/-- Settles O27: ADD and MUL are the ring operations of bytes, which reading a byte as a signed number keeps. -/
theorem aluIsCommutativeAndSignBlind : Obligations.AluIsCommutativeAndSignBlind := by
  intro a b
  simp only [alu_add, alu_mul, wrap8_add, wrap8_mul, BitVec.ofInt_add, BitVec.ofInt_mul, BitVec.ofInt_toInt]
  exact ⟨congrArg _ (BitVec.add_comm a b), congrArg _ (BitVec.mul_comm a b), trivial, trivial⟩

end Sys2Proof.Machine

/-! # Writes of memory (20_memory.md R42, R49; 70_reset_and_hazards.md R157) -/

namespace Sys2Proof.Machine

/-- Settles O28: above 255 the write raises; inside memory a read after it gives the byte at its address and
the old one elsewhere, and the canonical form is kept. -/
theorem memWriteWritesOneByteOrRaises : Obligations.MemWriteWritesOneByteOrRaises := by
  refine fun s a v hwf => ⟨fun ha => memWrite_error ha v, fun ha => ?_⟩
  exact ⟨_, memWrite_ok ha v, (memRead_setMem_write hwf v ha a).trans (if_pos rfl),
    fun b hb => (memRead_setMem_write hwf v ha b).trans (if_neg hb), rfl, Memory.wf_write hwf ha v⟩

/-- The memory after a sequence of writes at byte addresses, first to last. -/
def writeAll (ws : List (Byte × Byte)) (m : Memory) : Memory :=
  ws.foldl (fun m w => m.write w.1.toNat w.2) m

theorem writeAll_concat (ws : List (Byte × Byte)) (w : Byte × Byte) (m : Memory) :
    writeAll (ws ++ [w]) m = (writeAll ws m).write w.1.toNat w.2 := by
  simp [writeAll]

theorem wf_writeAll (ws : List (Byte × Byte)) {m : Memory} (h : m.wf = true) : (writeAll ws m).wf = true := by
  induction ws using List.reverseRecOn with
  | nil => exact h
  | append_singleton ws w ih =>
    rw [writeAll_concat]
    exact Memory.wf_write ih (byte_le_255 _) _

theorem memRead_writeAll (ws : List (Byte × Byte)) {s : State} (h : s.mem.wf = true) (a : Nat) :
    memRead { s with mem := writeAll ws s.mem } a =
      match ws.reverse.find? (fun w => decide (w.1.toNat = a)) with
      | some w => .ok w.2
      | none => memRead s a := by
  induction ws using List.reverseRecOn with
  | nil => rfl
  | append_singleton ws w ih =>
    rw [writeAll_concat]
    refine (memRead_setMem_write (s := { s with mem := writeAll ws s.mem }) (wf_writeAll ws h) w.2
      (byte_le_255 _) a).trans ?_
    rw [List.reverse_append, List.reverse_singleton, List.singleton_append, List.find?_cons]
    by_cases ha : a = w.1.toNat
    · simp [ha]
    · rw [if_neg ha, ih, decide_eq_false (fun e => ha e.symm)]

/-- Settles O29, by induction from the last write. -/
theorem readReturnsTheMostRecentWrite : Obligations.ReadReturnsTheMostRecentWrite :=
  fun _ ws a h _ => memRead_writeAll ws h a

/-- Settles O30: a fault and a stopped machine leave memory, and of the instructions only PUSH writes it. -/
theorem onlyPushWritesMemory : Obligations.OnlyPushWritesMemory := by
  intro s t hwf h
  rcases step_inversion h with ⟨-, rfl⟩ | ⟨-, o, d, -, rfl⟩ | ⟨hs, i, hm, hr, he⟩
  · exact .inl fun _ => rfl
  · exact .inl fun _ => rfl
  · rcases exec_writes hr he with ⟨r, rfl, rfl⟩ | ⟨r, -, rfl⟩ | ⟨hmem, -⟩
    · exact .inr ⟨hs, memRead_of_holdsInstr hm, sameMemoryBut_pushed hwf r⟩
    · exact .inl fun _ => rfl
    · exact .inl (memRead_of_mem hmem)

/-- Settles O31: the step is PUSH, whose byte stands at the new SP: at the next `pc`, where it is the opcode
byte fetched next, or on PUSH's own operand. -/
theorem pushedByteIsFetchedNext : Obligations.PushedByteIsFetchedNext := by
  intro s r hwf hs hm v
  have hstep : step s = .next (pushed r s) := (step_of_holdsInstr hs rfl hm).trans (exec_push_regByte r s)
  have hv : memRead (pushed r s) (decByte (readReg s 7)).toNat = .ok v := memRead_pushed_sp hwf r
  refine ⟨fun hsp => ?_, fun hsp => ?_⟩
  · rw [hsp] at hv
    exact ⟨_, hstep, hv, fun h1 => step_ok (s := pushed r s) hs (fetchInstr_hlt (h1 ▸ hv)),
      fun hl => step_unknownOpcode (s := pushed r s) hs hv hl⟩
  · rw [hsp] at hv
    exact ⟨_, hstep, hv, readReg_pushed_sp r s, sameRegsBut_pushed r s⟩

end Sys2Proof.Machine

/-! # Output and parameters (10_state.md R30, R31; 00_scope.md R10, R11) -/

namespace Sys2Proof.Machine

/-- Nothing is delivered where the output did not change. -/
theorem delivered_of_out_eq {s t : State} (h : t.out = s.out) : delivered s t = [] :=
  delivered_of_out (by rw [h, List.append_nil])

/-- Settles O32: a fault and a stopped machine leave the output, and of the instructions only PRN adds to it. -/
theorem outputGrowsOnlyByPrint : Obligations.OutputGrowsOnlyByPrint := by
  intro s t h
  rcases step_inversion h with ⟨-, rfl⟩ | ⟨-, o, d, -, rfl⟩ | ⟨hs, i, hm, hr, he⟩
  · exact .inl ⟨rfl, delivered_of_out_eq rfl⟩
  · exact .inl ⟨rfl, delivered_of_out_eq rfl⟩
  · rcases exec_writes hr he with ⟨r, -, rfl⟩ | ⟨r, rfl, rfl⟩ | ⟨-, hout⟩
    · exact .inl ⟨rfl, delivered_of_out_eq rfl⟩
    · exact .inr ⟨hs, memRead_of_holdsInstr hm, r, rfl, delivered_of_out rfl⟩
    · exact .inl ⟨hout, delivered_of_out_eq hout⟩

/-- `s` with another output trace. -/
def setOut (o : List Byte) (s : State) : State := { s with out := o }

/-- `f` answers a next state for `s` whatever the output so far, appends the same bytes to it, and leaves the
same everywhere else. -/
def OutputBlindAt (f : State → Outcome) (s : State) : Prop :=
  ∃ (t : State) (l : List Byte), f s = .next t ∧ t.out = s.out ++ l ∧
    ∀ o, f (setOut o s) = .next (setOut (o ++ l) t)

/-- The case of an `f` that leaves the output alone. -/
theorem outputBlindAt_silent {f : State → Outcome} {s t : State} (h : f s = .next t) (hout : t.out = s.out)
    (hset : ∀ o, f (setOut o s) = .next (setOut o t)) : OutputBlindAt f s :=
  ⟨t, [], h, by rw [hout, List.append_nil], fun o => by rw [List.append_nil]; exact hset o⟩

theorem outputBlindAt_exec (i : Instr) (s : State) : OutputBlindAt (exec i) s := by
  by_cases hr : i.registersOk = true
  · induction i, hr using registersOk_cases with
    | hlt => exact outputBlindAt_silent (execHlt_eq s) rfl fun o => execHlt_eq (setOut o s)
    | push r => exact outputBlindAt_silent (exec_push_regByte r s) rfl fun o => exec_push_regByte r (setOut o s)
    | pop r => exact outputBlindAt_silent (exec_pop_regByte r s) rfl fun o => exec_pop_regByte r (setOut o s)
    | prn r => exact ⟨_, [readReg s r], exec_prn_regByte r s, rfl, fun o => exec_prn_regByte r (setOut o s)⟩
    | ldi r v => exact outputBlindAt_silent (exec_ldi_regByte r v s) rfl fun o => exec_ldi_regByte r v (setOut o s)
    | add a b => exact outputBlindAt_silent (exec_add_regByte a b s) rfl fun o => exec_add_regByte a b (setOut o s)
    | mul a b => exact outputBlindAt_silent (exec_mul_regByte a b s) rfl fun o => exec_mul_regByte a b (setOut o s)
  · obtain ⟨r, hfirst, -⟩ := exists_firstBad hr
    exact outputBlindAt_silent (exec_firstBad hfirst s) rfl fun o => exec_firstBad hfirst (setOut o s)

theorem raiseDecode_setOut (e : DecodeError Detail) (o : List Byte) (s : State) :
    raiseDecode e (setOut o s) = setOut o (raiseDecode e s) := by
  cases e <;> rfl

theorem raiseDecode_out (e : DecodeError Detail) (s : State) : (raiseDecode e s).out = s.out := by
  cases e <;> rfl

theorem fetchInstr_setOut (o : List Byte) (s : State) : fetchInstr (setOut o s) = fetchInstr s := rfl

theorem outputBlindAt_step (s : State) : OutputBlindAt step s := by
  by_cases hs : s.status = .running
  · cases hf : fetchInstr s with
    | error e =>
      refine outputBlindAt_silent (step_error hs hf) (raiseDecode_out e s) fun o => ?_
      rw [← raiseDecode_setOut]
      exact step_error (s := setOut o s) hs hf
    | ok i =>
      obtain ⟨t, l, h, hout, hset⟩ := outputBlindAt_exec i s
      exact ⟨t, l, (step_ok hs hf).trans h, hout, fun o => (step_ok (s := setOut o s) hs hf).trans (hset o)⟩
  · exact outputBlindAt_silent (step_stopped hs) rfl fun o => step_stopped (s := setOut o s) hs

/-- Settles O33: the fetch and every instruction are blind to the output, and what is delivered is what the
step appended. -/
theorem stepDoesNotReadTheOutput : Obligations.StepDoesNotReadTheOutput := by
  intro s t o h
  obtain ⟨u, l, hu, hout, hset⟩ := outputBlindAt_step s
  obtain rfl := Host.Outcome.next.inj (h.symm.trans hu)
  rw [delivered_of_out hout]
  exact hset o

theorem step_cfg {s t : State} (h : step s = .next t) : t.cfg = s.cfg := by
  rcases step_inversion h with ⟨-, rfl⟩ | ⟨-, o, d, -, rfl⟩ | ⟨-, i, -, hr, he⟩
  · rfl
  · rfl
  · obtain ⟨hcfg, -, -⟩ := exec_frame hr he
    exact hcfg

/-- A load-port write that is accepted replaces one byte of memory (10_state.md R36). -/
theorem eq_of_loadPort {s t : State} {addr data : Byte} (h : loadPort addr data s = .next t) :
    t = { s with mem := s.mem.write addr.toNat data } := by
  unfold loadPort at h
  split at h
  · exact (Host.Outcome.next.inj h).symm
  · exact nomatch h

/-- Settles O34, input by input. -/
theorem noInputChangesTheParameters : Obligations.NoInputChangesTheParameters := by
  intro inp s t h
  cases inp with
  | reset =>
    obtain rfl := Host.Outcome.next.inj h
    rfl
  | load addr data =>
    obtain rfl := eq_of_loadPort h
    rfl
  | step => exact step_cfg h

end Sys2Proof.Machine

/-! # The invariant at reset, at launch and along a run (10_state.md R26 to R29, R33) -/

namespace Sys2Proof.Machine

theorem inv_resetWith (cfg : Config) : (State.resetWith cfg).Inv :=
  ⟨Memory.wf_reset cfg, Nat.zero_le 256, rfl⟩

/-- Settles O36: the reset state has no listed cell, `pc` 0, and RUNNING without a record. -/
theorem resetMeetsTheInvariant : Obligations.ResetMeetsTheInvariant :=
  ⟨inv_resetWith Config.default, inv_resetWith⟩

/-- Settles O43, register by register. -/
theorem resetSetsEveryPieceOfState : Obligations.ResetSetsEveryPieceOfState := by
  refine fun s => ⟨State.resetWith s.cfg, rfl, fun j hj => ?_, rfl, rfl, fun a ha => memRead_ok ha, rfl, rfl, rfl⟩
  match j with
  | 0 | 1 | 2 | 3 | 4 | 5 | 6 => rfl
  | 7 => exact absurd rfl hj

/-- Another canonical memory keeps the invariant. -/
theorem inv_setMem {s : State} {m : Memory} (h : s.Inv) (hm : m.wf = true) : State.Inv { s with mem := m } :=
  ⟨hm, h.pcRange, h.fault⟩

/-- An image that fits is loaded into the reset state, and the invariant holds. -/
theorem launch_fits (cfg : Config) {image : List Byte} (h : image.length ≤ 256) :
    ∃ s, launch cfg image = .next s ∧ s.Inv := by
  obtain ⟨m, hload, hm, -⟩ := loadFrom_fits (bs := image) (i := 0) (s := State.resetWith cfg) rfl rfl
    (Memory.wf_reset cfg) (by omega)
  exact ⟨_, (if_neg (by omega)).trans hload, inv_setMem (inv_resetWith cfg) hm⟩

/-- Settles O38: reset gives a state that meets the invariant, a load-port write keeps memory canonical, and
steps keep it; an image that is launched fits. -/
theorem inputsAndImagesKeepTheInvariant : Obligations.InputsAndImagesKeepTheInvariant := by
  refine ⟨fun inp s t hinv h => ?_, fun cfg image s h => ?_⟩
  · cases inp with
    | reset =>
      obtain rfl := Host.Outcome.next.inj h
      exact inv_resetWith s.cfg
    | load addr data =>
      obtain rfl := eq_of_loadPort h
      exact inv_setMem hinv (Memory.wf_write hinv.memory (byte_le_255 addr) data)
    | step => exact stepKeepsTheInvariant s t hinv h
  · by_cases hlen : image.length ≤ 256
    · obtain ⟨u, hu, hinv⟩ := launch_fits cfg hlen
      obtain rfl := Host.Outcome.next.inj (h.symm.trans hu)
      exact hinv
    · exact nomatch h.symm.trans (if_pos (by omega) : launch cfg image = .refused .usageError)

/-- A step from RUNNING that goes on running has raised `pc`, to at most 256 (40_cycle.md R90). -/
theorem step_running_pc {s t : State} (hs : s.status = .running) (h : step s = .next t)
    (ht : t.status = .running) : s.pc < t.pc ∧ t.pc ≤ 256 := by
  rcases step_inversion h with ⟨hne, -⟩ | ⟨-, o, d, -, rfl⟩ | ⟨-, i, hm, hr, he⟩
  · exact absurd hs hne
  · exact nomatch ht
  · rw [exec_pc hr he]
    exact ⟨by rw [Instr.length]; omega, end_le_of_holdsInstr hm⟩

/-- Settles O39, by induction on the number of steps: a machine that goes on running has raised `pc`, and one
that stops stays stopped. -/
theorem everyRunEndsWithin257Steps : Obligations.EveryRunEndsWithin257Steps := by
  intro s hpc n hn
  induction n generalizing s with
  | zero => omega
  | succ n ih =>
    by_cases hs : s.status = .running
    · obtain ⟨t, h⟩ := step_next s
      rw [core_run_succ (M := Sys2Proof.core) h]
      by_cases ht : t.status = .running
      · obtain ⟨hlt, hle⟩ := step_running_pc hs h ht
        exact ih t hle (by omega)
      · exact ⟨t, core_run_stopped ht n, ht⟩
    · exact ⟨s, core_run_stopped hs _, hs⟩

/-- What every step keeps holds at the end of a run. -/
theorem core_run_inv {n : Nat} {s t : State} (hinv : s.Inv) (h : Host.Core.run Sys2Proof.core n s = .next t) :
    t.Inv := by
  induction n generalizing s with
  | zero =>
    obtain rfl := Host.Outcome.next.inj h
    exact hinv
  | succ n ih =>
    obtain ⟨u, hu⟩ := step_next s
    rw [core_run_succ (M := Sys2Proof.core) hu] at h
    exact ih (stepKeepsTheInvariant s u hinv hu) h

/-- A stopped machine that meets the invariant is HALTED without a record or in FAULT with one (R29). -/
theorem stopped_cases_of_faultOk {s : State} (h : s.faultOk = true) (hs : s.status ≠ .running) :
    (s.status = .halted ∧ s.fault = none) ∨ (s.status = .fault ∧ s.fault ≠ none) := by
  unfold State.faultOk at h
  split at h <;> simp_all

/-- The end of a run is observable, piece by piece (40_cycle.md R91). -/
theorem observe_stopped {s : State} (hs : s.status ≠ .running) :
    observe s = some ⟨s.status, s.fault, s.out, s.x, s.pc, s.mem⟩ := by
  unfold observe
  cases h : s.status <;> simp_all

/-- Settles O40: the launched state meets the invariant at `pc` 0, so 257 steps end the run, with the
invariant still there to say how. -/
theorem everyLaunchedRunEnds : Obligations.EveryLaunchedRunEnds := by
  intro cfg image hlen
  obtain ⟨s, hlaunch, hinv⟩ := launch_fits cfg hlen
  obtain ⟨t, hrun, ht⟩ := everyRunEndsWithin257Steps s hinv.pcRange 257 (Nat.sub_le 257 s.pc)
  exact ⟨s, t, hlaunch, hrun, stopped_cases_of_faultOk (core_run_inv hinv hrun).fault ht,
    _, observe_stopped ht, rfl, rfl, rfl, rfl, rfl, rfl⟩

/-- The load port is closed once `pc` has left 0 (10_state.md R36). -/
theorem loadPort_started {s : State} (h : s.pc ≠ 0) (addr data : Byte) :
    loadPort addr data s = .refused .loadPortTooLate := by
  simp [loadPort, beforeFirstStep, h]

/-- Settles O42: the port is open on a running machine at `pc` 0; after a step the machine has stopped or
`pc` has risen. -/
theorem loadPortWritesOnlyBeforeTheFirstStep : Obligations.LoadPortWritesOnlyBeforeTheFirstStep := by
  refine ⟨fun s addr data hwf hs hpc => ?_, fun s t addr data hs h => ?_⟩
  · have hread := memRead_setMem_write hwf data (byte_le_255 addr)
    exact ⟨_, loadPort_ready hs hpc addr data, (hread _).trans (if_pos rfl),
      fun b hb => (hread b).trans (if_neg hb), rfl⟩
  · by_cases ht : t.status = .running
    · exact loadPort_started (Nat.ne_zero_of_lt (step_running_pc hs h ht).1) addr data
    · exact loadPort_stopped ht addr data

end Sys2Proof.Machine

/-! # PUSH then POP (44_stack.md R123) -/

namespace Sys2Proof.Machine

theorem execAll_cons {i : Instr} {s t : State} (h : exec i s = .next t) (is : List Instr) :
    execAll (i :: is) s = execAll is t := by
  rw [execAll, h]

/-- The address of the first push is the decremented SP. -/
theorem pushAddr_zero (sp : Byte) : pushAddr sp 0 = (decByte sp).toNat := by
  rw [pushAddr, decByte_toNat]

/-- What POP finds at SP after PUSH: the byte pushed. -/
theorem read_pushed_sp {s : State} (h : s.mem.wf = true) (r : Fin 8) :
    (pushed r s).mem.read (readReg (pushed r s) spIndex).toNat =
      if r = spIndex then decByte (readReg s spIndex) else readReg s r := by
  rw [readReg_pushed_sp, pushed_mem, Memory.read_write_same h]

/-- PUSH leaves an instruction of two bytes where it does not write on them. -/
theorem holdsInstr_pop_pushed {s : State} {a : Nat} {b : Byte} (hwf : s.mem.wf = true) (r : Fin 8)
    (hm : HoldsInstr s a (.pop b)) (h₀ : pushAddr (readReg s spIndex) 0 ≠ a)
    (h₁ : pushAddr (readReg s spIndex) 0 ≠ a + 1) : HoldsInstr (pushed r s) a (.pop b) := by
  intro k v hk
  have hlt : k < 2 := (List.getElem?_eq_some_iff.1 hk).1
  rw [pushAddr_zero] at h₀ h₁
  exact (sameMemoryBut_pushed hwf r (a + k) (by omega)).trans (hm k v hk)

/-- Two steps execute a PUSH and then a POP that lie in memory, where the push does not overwrite the POP. -/
theorem core_run_push_pop {a b : Fin 8} {s : State} (hwf : s.mem.wf = true) (hs : s.status = .running)
    (hpush : HoldsInstr s s.pc (.push (regByte a))) (hpop : HoldsInstr s (s.pc + 2) (.pop (regByte b)))
    (h₀ : pushAddr (readReg s spIndex) 0 ≠ s.pc + 2) (h₁ : pushAddr (readReg s spIndex) 0 ≠ s.pc + 3) :
    Host.Core.run Sys2Proof.core 2 s = .next (popped b (pushed a s)) := by
  have hstep : step s = .next (pushed a s) := (step_of_holdsInstr hs rfl hpush).trans (exec_push_regByte a s)
  have hstep' : step (pushed a s) = .next (popped b (pushed a s)) :=
    (step_of_holdsInstr (s := pushed a s) hs rfl (holdsInstr_pop_pushed hwf a hpop h₀ h₁)).trans (exec_pop_regByte b _)
  exact (core_run_succ (M := Sys2Proof.core) hstep 1).trans (core_run_succ (M := Sys2Proof.core) hstep' 0)

/-- Settles O44: what POP reads at SP is the byte PUSH wrote there, and incrementing undoes decrementing. -/
theorem pushThenPopRoundTrips : Obligations.PushThenPopRoundTrips := by
  intro a b s hwf v
  have hread : (pushed a s).mem.read (readReg (pushed a s) spIndex).toNat = v := read_pushed_sp hwf a
  have haddr : pushAddr (readReg s 7) 0 = (decByte (readReg s spIndex)).toNat := pushAddr_zero _
  refine ⟨popped b (pushed a s),
    (execAll_cons (exec_push_regByte a s) _).trans (execAll_cons (exec_pop_regByte b _) []),
    fun hb => ⟨(readReg_popped_same hb _).trans hread, ?_⟩, ?_, fun j hj hsp => ?_, ?_, ?_, ⟨rfl, rfl, rfl⟩, rfl, rfl,
    fun hs hpush hpop h₀ h₁ => core_run_push_pop hwf hs hpush hpop h₀ h₁⟩
  · exact (readReg_popped_sp hb _).trans (by rw [readReg_pushed_sp, incByte_decByte]; rfl)
  · rintro rfl
    exact (congrArg BitVec.toNat ((readReg_popped_sp_self _).trans (congrArg incByte hread))).trans (incByte_toNat v)
  · exact (readReg_popped_other hj hsp _).trans (sameRegsBut_pushed a s j hsp)
  · rw [haddr]
    exact memRead_pushed_sp hwf a
  · rw [haddr]
    exact sameMemoryBut_pushed hwf a

end Sys2Proof.Machine

/-! # Nested pushes and pops (44_stack.md R124) -/

namespace Sys2Proof.Machine

theorem execAll_append {is js : List Instr} {s t : State} (h : execAll is s = .next t) :
    execAll (is ++ js) s = execAll js t := by
  induction is generalizing s with
  | nil =>
    obtain rfl := Host.Outcome.next.inj h
    rfl
  | cons i is ih =>
    obtain ⟨u, hu⟩ := exec_next i s
    rw [execAll_cons hu] at h
    rw [List.cons_append, execAll_cons hu, ih h]

/-- The state after a row of pushes, first to last. -/
def pushAll (ps : List (Fin 8)) (s : State) : State := ps.foldl (fun s r => pushed r s) s

/-- The state after a row of pops, first to last. -/
def popAll (qs : List (Fin 8)) (s : State) : State := qs.foldl (fun s r => popped r s) s

theorem execAll_push (ps : List (Fin 8)) (s : State) :
    execAll (ps.map fun r => .push (regByte r)) s = .next (pushAll ps s) := by
  induction ps generalizing s with
  | nil => rfl
  | cons p ps ih => exact (execAll_cons (exec_push_regByte p s) _).trans (ih _)

theorem execAll_pop (qs : List (Fin 8)) (s : State) :
    execAll (qs.map fun r => .pop (regByte r)) s = .next (popAll qs s) := by
  induction qs generalizing s with
  | nil => rfl
  | cons q qs ih => exact (execAll_cons (exec_pop_regByte q s) _).trans (ih _)

theorem pushAll_concat (ps : List (Fin 8)) (r : Fin 8) (s : State) :
    pushAll (ps ++ [r]) s = pushed r (pushAll ps s) := by
  simp [pushAll]

theorem popAll_concat (qs : List (Fin 8)) (r : Fin 8) (s : State) :
    popAll (qs ++ [r]) s = popped r (popAll qs s) := by
  simp [popAll]

/-- Status, record and parameters, output and the advance of a row of pushes. -/
theorem pushAll_frame (ps : List (Fin 8)) (s : State) :
    SameControl s (pushAll ps s) ∧ (pushAll ps s).out = s.out ∧ (pushAll ps s).pc = s.pc + 2 * ps.length := by
  induction ps using List.reverseRecOn with
  | nil => exact ⟨⟨rfl, rfl, rfl⟩, rfl, rfl⟩
  | append_singleton ps p ih =>
    obtain ⟨hcontrol, hout, hpc⟩ := ih
    rw [pushAll_concat]
    exact ⟨hcontrol, hout, by rw [pushed_pc, hpc, List.length_append, List.length_singleton]; omega⟩

/-- A row of pops, likewise; it writes no memory. -/
theorem popAll_frame (qs : List (Fin 8)) (s : State) :
    SameControl s (popAll qs s) ∧ (popAll qs s).out = s.out ∧ (popAll qs s).pc = s.pc + 2 * qs.length ∧
      (popAll qs s).mem = s.mem := by
  induction qs using List.reverseRecOn with
  | nil => exact ⟨⟨rfl, rfl, rfl⟩, rfl, rfl, rfl⟩
  | append_singleton qs q ih =>
    obtain ⟨hcontrol, hout, hpc, hmem⟩ := ih
    rw [popAll_concat]
    exact ⟨hcontrol, hout, by rw [popped_pc, hpc, List.length_append, List.length_singleton]; omega, hmem⟩

theorem readReg_pushAll_other (ps : List (Fin 8)) {j : Fin 8} (hj : j ≠ spIndex) (s : State) :
    readReg (pushAll ps s) j = readReg s j := by
  induction ps using List.reverseRecOn with
  | nil => rfl
  | append_singleton ps p ih => rw [pushAll_concat, sameRegsBut_pushed _ _ j hj, ih]

/-- SP after a row of pushes: each takes 1 off, modulo 256. -/
theorem readReg_pushAll_sp (ps : List (Fin 8)) (s : State) :
    (readReg (pushAll ps s) spIndex).toNat = ((readReg s spIndex).toNat + 255 * ps.length) % 256 := by
  induction ps using List.reverseRecOn with
  | nil => exact (Nat.mod_eq_of_lt (readReg s spIndex).isLt).symm
  | append_singleton ps p ih =>
    rw [pushAll_concat, readReg_pushed_sp, decByte_toNat, ih, List.length_append, List.length_singleton]
    omega

/-- The next push goes where `pushAddr` says. -/
theorem decByte_readReg_pushAll_sp (ps : List (Fin 8)) (s : State) :
    (decByte (readReg (pushAll ps s) spIndex)).toNat = pushAddr (readReg s spIndex) ps.length := by
  rw [decByte_toNat, readReg_pushAll_sp, pushAddr]
  omega

theorem wf_pushAll (ps : List (Fin 8)) {s : State} (h : s.mem.wf = true) : (pushAll ps s).mem.wf = true := by
  induction ps using List.reverseRecOn with
  | nil => exact h
  | append_singleton ps p ih => rw [pushAll_concat]; exact wf_pushed ih p

/-- Two pushes less than 256 apart have different cells. -/
theorem pushAddr_ne {sp : Byte} {i j : Nat} (hij : i < j) (hj : j < i + 256) : pushAddr sp i ≠ pushAddr sp j := by
  simp only [pushAddr]
  omega

/-- What memory reads as after one more push of a register other than R7. -/
theorem memRead_pushAll_concat (ps : List (Fin 8)) {r : Fin 8} (hr : r ≠ spIndex) {s : State}
    (hwf : s.mem.wf = true) (a : Nat) :
    memRead (pushAll (ps ++ [r]) s) a =
      if a = pushAddr (readReg s spIndex) ps.length then .ok (readReg s r) else memRead (pushAll ps s) a := by
  rw [pushAll_concat, memRead_pushed (wf_pushAll ps hwf), decByte_readReg_pushAll_sp, if_neg hr,
    readReg_pushAll_other ps hr]

/-- A pushed byte stays in its cell until a push 256 further on. -/
theorem memRead_pushAll_pushAddr {ps : List (Fin 8)} (hps : spIndex ∉ ps) {s : State} (hwf : s.mem.wf = true)
    {i : Nat} {p : Fin 8} (hi : ps[i]? = some p) (hlen : ps.length ≤ i + 256) :
    memRead (pushAll ps s) (pushAddr (readReg s spIndex) i) = .ok (readReg s p) := by
  induction ps using List.reverseRecOn with
  | nil => exact nomatch hi
  | append_singleton ps r ih =>
    obtain ⟨hps', hr⟩ : spIndex ∉ ps ∧ spIndex ≠ r := by simpa using hps
    rw [List.length_append, List.length_singleton] at hlen
    rw [memRead_pushAll_concat ps hr.symm hwf]
    rcases Nat.lt_or_ge i ps.length with hlt | hge
    · rw [List.getElem?_append_left hlt] at hi
      rw [if_neg (pushAddr_ne hlt (by omega)), ih hps' hi (by omega)]
    · have hlast : i < ps.length + 1 := by simpa using (List.getElem?_eq_some_iff.1 hi).1
      obtain rfl : i = ps.length := by omega
      obtain rfl : r = p := by simpa using hi
      exact if_pos rfl

/-- A row of pushes writes no cell but theirs. -/
theorem memRead_pushAll_other {ps : List (Fin 8)} (hps : spIndex ∉ ps) {s : State} (hwf : s.mem.wf = true)
    {a : Nat} (ha : ∀ i, i < ps.length → a ≠ pushAddr (readReg s spIndex) i) :
    memRead (pushAll ps s) a = memRead s a := by
  induction ps using List.reverseRecOn with
  | nil => rfl
  | append_singleton ps r ih =>
    obtain ⟨hps', hr⟩ : spIndex ∉ ps ∧ spIndex ≠ r := by simpa using hps
    rw [List.length_append, List.length_singleton] at ha
    rw [memRead_pushAll_concat ps hr.symm hwf, if_neg (ha _ (Nat.lt_succ_self _)),
      ih hps' fun i hi => ha i (by omega)]

/-- SP after a row of pops into registers other than R7: each adds 1, modulo 256. -/
theorem readReg_popAll_sp {qs : List (Fin 8)} (hqs : spIndex ∉ qs) (s : State) :
    (readReg (popAll qs s) spIndex).toNat = ((readReg s spIndex).toNat + qs.length) % 256 := by
  induction qs using List.reverseRecOn with
  | nil => exact (Nat.mod_eq_of_lt (readReg s spIndex).isLt).symm
  | append_singleton qs q ih =>
    obtain ⟨hqs', hq⟩ : spIndex ∉ qs ∧ spIndex ≠ q := by simpa using hqs
    rw [popAll_concat, readReg_popped_sp hq.symm, incByte_toNat, ih hqs', List.length_append, List.length_singleton]
    omega

theorem readReg_popAll_other {qs : List (Fin 8)} {r : Fin 8} (hr : r ∉ qs) (hsp : r ≠ spIndex) (s : State) :
    readReg (popAll qs s) r = readReg s r := by
  induction qs using List.reverseRecOn with
  | nil => rfl
  | append_singleton qs q ih =>
    obtain ⟨hr', hq⟩ : r ∉ qs ∧ r ≠ q := by simpa using hr
    rw [popAll_concat, readReg_popped_other hq hsp, ih hr']

/-- A register holds what the last pop into it read, at SP plus the number of that pop. -/
theorem readReg_popAll_last {qs : List (Fin 8)} (hqs : spIndex ∉ qs) {s : State} {j : Nat} {q : Fin 8}
    (hj : qs[j]? = some q) (hlast : ∀ j', j < j' → qs[j']? ≠ some q) :
    readReg (popAll qs s) q = s.mem.read (((readReg s spIndex).toNat + j) % 256) := by
  induction qs using List.reverseRecOn with
  | nil => exact nomatch hj
  | append_singleton qs r ih =>
    obtain ⟨hqs', hr⟩ : spIndex ∉ qs ∧ spIndex ≠ r := by simpa using hqs
    have hlen : j < qs.length + 1 := by simpa using (List.getElem?_eq_some_iff.1 hj).1
    rw [popAll_concat]
    rcases Nat.lt_or_ge j qs.length with hlt | hge
    · rw [List.getElem?_append_left hlt] at hj
      have hne : q ≠ r := fun e => hlast qs.length hlt (by simp [e])
      have hsp : q ≠ spIndex := fun e => hqs' (e ▸ List.mem_of_getElem? hj)
      rw [readReg_popped_other hne hsp]
      refine ih hqs' hj fun j' hj' => ?_
      rcases Nat.lt_or_ge j' qs.length with hlt' | hge'
      · rw [← List.getElem?_append_left (l₂ := [r]) hlt']
        exact hlast j' hj'
      · rw [List.getElem?_eq_none hge']
        exact nofun
    · obtain rfl : j = qs.length := by omega
      obtain rfl : r = q := by simpa using hj
      obtain ⟨-, -, -, hmem⟩ := popAll_frame qs s
      rw [readReg_popped_same hr.symm, hmem, readReg_popAll_sp hqs']

/-- The pop number `j` of as many as the `n` pushes reads the cell of the push number `n - 1 - j`. -/
theorem popAddr_eq_pushAddr (sp : Byte) {n j : Nat} (hj : j < n) :
    ((sp.toNat + 255 * n) % 256 + j) % 256 = pushAddr sp (n - 1 - j) := by
  rw [pushAddr]
  omega

/-- Settles O45: the pops read memory as the pushes left it, from the last pushed cell upwards. -/
theorem nestedPushesPopInReverse : Obligations.NestedPushesPopInReverse := by
  intro s ps qs hwf hlen hps hqs
  obtain ⟨⟨hstatus, hfault, hcfg⟩, hout, hpc⟩ := pushAll_frame ps s
  obtain ⟨⟨hstatus', hfault', hcfg'⟩, hout', hpc', hmem⟩ := popAll_frame qs (pushAll ps s)
  have hsp : readReg (popAll qs (pushAll ps s)) 7 = readReg s 7 := by
    apply BitVec.eq_of_toNat_eq
    refine (readReg_popAll_sp hqs _).trans ?_
    have hlt := (readReg s spIndex).isLt
    rw [readReg_pushAll_sp, ← hlen]
    simp only [spIndex] at hlt ⊢
    omega
  refine ⟨popAll qs (pushAll ps s), (execAll_append (execAll_push ps s)).trans (execAll_pop qs _), hsp,
    fun j q p hj hq hp hlast => ?_, fun r hr => ?_, fun i p hi hn => ?_, fun a ha => ?_,
    ⟨hstatus'.trans hstatus, hfault'.trans hfault, hcfg'.trans hcfg⟩, hout'.trans hout, ?_⟩
  · have hjn : j < ps.length := hlen ▸ (List.getElem?_eq_some_iff.1 hq).1
    have hcell := memRead_pushAll_pushAddr hps hwf hp (by omega)
    rw [memRead_ok (by rw [pushAddr]; omega)] at hcell
    rw [readReg_popAll_last hqs hq hlast, readReg_pushAll_sp, popAddr_eq_pushAddr _ hjn]
    exact Except.ok.inj hcell
  · by_cases h7 : r = spIndex
    · rw [h7]
      exact hsp
    · rw [readReg_popAll_other hr h7, readReg_pushAll_other ps h7]
  · exact (memRead_of_mem hmem _).trans (memRead_pushAll_pushAddr hps hwf hi hn)
  · exact (memRead_of_mem hmem a).trans (memRead_pushAll_other hps hwf ha)
  · rw [hpc', hpc, ← hlen]
    omega

end Sys2Proof.Machine

/-! # A line of the image text (70_reset_and_hazards.md R153) -/

namespace Sys2Proof.Machine

/-- The digit of a bit in the image text. -/
def bitDigit (b : Bool) : Char := if b then '1' else '0'

/-- The base-2 digits of the low `w` bits of `n`, most significant first. -/
def bitDigits (w n : Nat) : List Char := (List.range w).map fun k => bitDigit (n.testBit (w - 1 - k))

theorem binaryValue_concat (ds : List Char) (b : Bool) :
    binaryValue (ds ++ [bitDigit b]) = 2 * binaryValue ds + b.toNat := by
  cases b <;> simp [binaryValue, bitDigit]

/-- The last digit is the lowest bit, and those before it are the digits of the half. -/
theorem bitDigits_succ (w n : Nat) : bitDigits (w + 1) n = bitDigits w (n / 2) ++ [bitDigit (n.testBit 0)] := by
  simp only [bitDigits, List.range_succ, List.map_append, List.map_singleton, Nat.add_sub_cancel, Nat.sub_self]
  congr 1
  refine List.map_congr_left fun k hk => ?_
  rw [List.mem_range] at hk
  rw [← Nat.testBit_add_one, show w - 1 - k + 1 = w - k by omega]

/-- The digits of a number spell it. -/
theorem binaryValue_bitDigits (w n : Nat) : binaryValue (bitDigits w n) = n % 2 ^ w := by
  induction w generalizing n with
  | zero => simp [bitDigits, binaryValue, Nat.mod_one]
  | succ w ih =>
    rw [bitDigits_succ, binaryValue_concat, ih, Nat.testBit_zero, Nat.pow_succ', Nat.mod_mul]
    rcases Nat.mod_two_eq_zero_or_one n with h | h
    · simp [h]
    · simp [h]
      omega

/-- Every character is the digit of a bit. -/
def AllDigits (ds : List Char) : Prop := ∀ d ∈ ds, ∃ b, d = bitDigit b

theorem allDigits_bitDigits (w n : Nat) : AllDigits (bitDigits w n) := by
  intro d hd
  obtain ⟨k, -, rfl⟩ := List.mem_map.1 hd
  exact ⟨_, rfl⟩

theorem stripComment_digits {ds : List Char} (h : AllDigits ds) (comment : List Char) :
    stripComment (ds ++ ' ' :: '#' :: comment) = ds ++ [' '] := by
  have hd : ∀ d ∈ ds, (d != '#') = true := by
    intro d hd
    obtain ⟨b, rfl⟩ := h d hd
    cases b <;> rfl
  rw [stripComment, List.takeWhile_append_of_pos hd]
  rfl

theorem dropWhile_isWhitespace_digits {ds rest : List Char} (h : AllDigits ds) (hne : ds ≠ []) :
    (ds ++ rest).dropWhile Char.isWhitespace = ds ++ rest := by
  cases ds with
  | nil => exact absurd rfl hne
  | cons d ds =>
    obtain ⟨b, rfl⟩ := h d List.mem_cons_self
    cases b <;> rfl

theorem trimSpace_digits {ds : List Char} (h : AllDigits ds) (hne : ds ≠ []) : trimSpace (ds ++ [' ']) = ds := by
  have hrev : AllDigits ds.reverse := fun d hd => h d (List.mem_reverse.1 hd)
  have hend : (' ' :: ds.reverse).dropWhile Char.isWhitespace = ds.reverse.dropWhile Char.isWhitespace := rfl
  have hdigits := dropWhile_isWhitespace_digits (rest := []) hrev (by simpa using hne)
  rw [List.append_nil] at hdigits
  rw [trimSpace, dropWhile_isWhitespace_digits h hne, List.reverse_append, List.reverse_singleton,
    List.singleton_append, hend, hdigits, List.reverse_reverse]

/-- A line of digits, a space and a comment yields the byte the digits spell. -/
theorem parseLine_digits {ds : List Char} (h : AllDigits ds) (hne : ds ≠ []) (hle : binaryValue ds ≤ 255)
    (comment : List Char) :
    parseLine (ds ++ ' ' :: '#' :: comment) = .ok (some (BitVec.ofNat 8 (binaryValue ds))) := by
  have hall : (ds.all fun d => d == '0' || d == '1') = true := by
    refine List.all_eq_true.2 fun d hd => ?_
    obtain ⟨b, rfl⟩ := h d hd
    cases b <;> rfl
  simp only [parseLine, stripComment_digits h, trimSpace_digits h hne]
  rw [if_pos ⟨hne, hall⟩, if_pos hle]

theorem binaryValue_bitDigits_byte (b : Byte) : binaryValue (bitDigits 8 b.toNat) = b.toNat := by
  rw [binaryValue_bitDigits]
  exact Nat.mod_eq_of_lt b.isLt

/-- Settles O46: the comment is stripped and the space trimmed, which leaves the eight digits, and they spell
the byte; stripping a line that begins with a hash leaves nothing. -/
theorem binaryLineYieldsItsByte : Obligations.BinaryLineYieldsItsByte := by
  refine ⟨fun b comment => ?_, fun comment => rfl⟩
  have h := parseLine_digits (allDigits_bitDigits 8 b.toNat) (by simp [bitDigits])
    (by rw [binaryValue_bitDigits_byte]; exact byte_le_255 b) comment
  rw [binaryValue_bitDigits_byte, BitVec.ofNat_toNat, BitVec.setWidth_eq] at h
  exact h

end Sys2Proof.Machine
